-- ==== Sys2Proof/Word.lean ====
section
/-! DEFINITION. The words of the block, and the one slicing primitive of the spec's notation (00_scope.md R15).

A register value is the unsigned integer that R15 reads from its `DW` bits, a `Nat`. `DW` is a parameter of the
configuration (R12), so the width is not fixed in the type: `Machine.State.Inv` bounds every register by `2 ^ DW`, and the
port takes no wider value (log 2, log 8). -/

namespace Sys2Proof

/-- `v[hi:lo]` of 00_scope.md R15: bits `hi` down to `lo` of `v`, read as an unsigned integer. -/
def slice (v : Nat) (hi lo : Nat) : Nat := v / 2 ^ lo % 2 ^ (hi + 1 - lo)

end Sys2Proof
end

