-- ==== Sys2Proof/Config.lean ====
section
/-! DEFINITION. The configuration record of one block instance (00_scope.md R9 to R14) and the values the spec leaves
open. A configuration that is not well-formed is refused by the type: it cannot be built (R14, 93 S10; log 1). -/

namespace Sys2Proof

/-- The default of the data width `DW` (00_scope.md R12), which holds a BN254 element. -/
def Config.defaultDw : Nat := 256

/-- 00_scope.md R14: when a configuration is well-formed. `NC` is the length of the constant table. `NC ≠ NR` is
well-formed: the block reports it at run time (60_exceptions.md R121). -/
structure Config.WellFormed (p dw nr : Nat) (consts : List Nat) : Prop where
  prime : Nat.Prime p
  coprime : Nat.Coprime 5 (p - 1)
  dw_ge : 64 ≤ dw
  fits : p < 2 ^ dw
  nr_pos : 1 ≤ nr
  nr_le : nr ≤ 65535
  nc_pos : 1 ≤ consts.length
  nc_le : consts.length ≤ 65535
  canonical : ∀ c ∈ consts, c < p

/-- The parameters of the block: the prime `P` (R9), the data width `DW` (R12), the round count `NR` (R10) and the
constant ROM `C` of depth `NC` (R11). A record that gives no `dw` has R12's default. The defaults of `p`, `nr` and `consts`
are no values of the spec, which leaves them open: they only show that the type is inhabited, and no definition of the
model uses them (log 1). -/
structure Config where
  p : Nat := 2
  dw : Nat := Config.defaultDw
  nr : Nat := 1
  consts : List Nat := [0]
  wf : Config.WellFormed p dw nr consts := by constructor <;> decide
deriving DecidableEq, Repr, Inhabited

/-- `NC`, the depth of the constant ROM (R11). -/
def Config.nc (c : Config) : Nat := c.consts.length

/-- `NC ≠ NR`, the mismatch the block reports (10_state.md R37). -/
def Config.mismatch (c : Config) : Bool := c.nc != c.nr

/-- ROM entry `C[i]` (10_state.md R38). An index past the table reads 0; no reachable command uses one (log 15). -/
def Config.roundConst (c : Config) (i : Nat) : Nat := c.consts.getD i 0

/-- OPEN: the configuration of the block that `Machine.State.reset` resets (00_scope.md R9 to R12; 92 D2, D32). It has
no body: nothing can be proved of it but that it is well-formed. Its `DW` too is left to the instance, which may differ
from the default (DESIGN CHOICE, safe; log 1). -/
opaque Config.impl : Config

/-- OPEN: what ID[47:32] reads when `DW` does not fit its 16 bits; 10_state.md R30 states no value there
(DESIGN CHOICE, safe; log 10). -/
opaque Config.freeIdWidth : Nat → BitVec 16

end Sys2Proof
end

