-- ==== Sys2Proof/Syntax.lean ====
section
/-! DEFINITION. The commands of the block (30_encoding.md R69), one constructor per row of spec/opcode_table.json, the
registers of the host port (20_memory.md R46), the host's transactions and the lines of its programs (30_encoding.md
R75 to R77). -/

namespace Sys2Proof

/-- The 15 commands of 30_encoding.md R69. `imm` is the unsigned round index of R67. -/
inductive Instr where
  | nop
  | fadd
  | fmul
  | fpow
  | fred
  | feq
  | round (imm : Nat)
  | ldc (imm : Nat)
  | fstep (imm : Nat)
  | perm
  | enc
  | dec
  | sinit
  | absorb
  | squeeze
deriving DecidableEq, Repr

/-- The six field registers of 10_state.md R20. -/
inductive FieldReg where
  | xl | xr | key | a | b | r
deriving DecidableEq, Repr

/-- The twelve named registers of the host port (20_memory.md R46). -/
inductive HostReg where
  | cmd | status | ctrl | ident | prime | roundctr
  | field (f : FieldReg)
deriving DecidableEq, Repr

/-- What the host does next on its port: the two transactions of 20_memory.md R47 and R48, and the polling loop
`wait` of 30_encoding.md R76, which repeats `rd STATUS` until BUSY reads 0. -/
inductive HostOp where
  | read (addr : BitVec 5)
  | write (addr : BitVec 5) (v : Nat)
  | poll
deriving DecidableEq, Repr

/-- One line of a host program: a transaction, a command, or a pseudo-instruction (30_encoding.md R75, R76, R77). -/
inductive HostLine where
  | wr (reg : HostReg) (v : Nat)
  | rd (reg : HostReg)
  | command (i : Instr)
  | wait
  | clrdone
  | ien
  | idis
  | permute (l r k : Nat)
  | encrypt (l r k : Nat)
  | decrypt (l r k : Nat)
  | hash (k : Nat) (xs : List Nat) (m : Nat)
deriving DecidableEq, Repr

/-- Who moves next (20_memory.md R59; log 4): the host on its port, the engine advancing ROUNDCTR by one evaluated
round (43_feistel.md R103), the engine completing the pending command (40_command_execution.md R83), or a cycle with
`rst = 1` (70_reset_and_hazards.md R137), in which the host may drop its request (R138). -/
inductive Turn where
  | host
  | progress
  | complete
  | reset (dropRequest : Bool)
deriving DecidableEq, Repr

end Sys2Proof
end

