-- ==== Sys2Proof/Machine/State.lean ====
section
/-! DEFINITION. The state of the block (10_state.md R19), the outcome of a command (40_command_execution.md R80), the
machine right after reset (10_state.md R44), and the reasons a step can stop. -/

namespace Sys2Proof.Machine

/-- Nothing makes the block stop: it has no traps, and a failing command is a defined completion (60_exceptions.md R118,
R124). The type has no constructor (log 9). -/
inductive Fault where
deriving DecidableEq, Repr

/-- Why the model gives a step no meaning. -/
inductive Refusal where
  /-- An instruction with no meaning yet, by its mnemonic. Raised by no arm of `exec`: every command has its meaning. Safe. -/
  | notModelled (mnemonic : String)
  /-- The host presents a value wider than the `DW` wires of `wdata` (20_memory.md R45, R52), which no host can do.
  Raised by `hostWrite`. Safe: the model says nothing of such a host (log 8). -/
  | notAPortValue
deriving DecidableEq, Repr

/-- The error codes of 60_exceptions.md R119 that a command can raise. -/
inductive ErrCode where
  | invalidInput
  | configMismatch
  | illegalCommand
  | indexRange
deriving DecidableEq, Repr

/-- The register writes of a successful command: the set `W` of 40_command_execution.md R80. `none` is no write. -/
structure Writes where
  xl : Option Nat := none
  xr : Option Nat := none
  r : Option Nat := none
  eq : Option Bool := none
  sqzf : Option Bool := none
deriving DecidableEq, Repr

/-- The outcome of a command (40_command_execution.md R80): `Fail(code, arg)` or `Ok(W, n)`. -/
inductive CmdOutcome where
  | fail (code : ErrCode) (arg : BitVec 5)
  | ok (w : Writes) (n : Nat)
deriving DecidableEq, Repr

/-- The state of the block. `xl` to `pending` are the architectural state of 10_state.md R19, field by field. `cfg` is
the instance's configuration, which no step changes (log 1). `host`, `turns` and `reads` are the model's own: the
transactions the host has yet to complete, the schedule of the two agents (log 4), and the values the completed
HostReads returned (70_reset_and_hazards.md R148; log 6). -/
structure State where
  cfg : Config
  xl : Nat
  xr : Nat
  key : Nat
  a : Nat
  b : Nat
  r : Nat
  cmd : Nat
  busy : Bool
  done : Bool
  eq : Bool
  sqzf : Bool
  cfgerr : Bool
  err : BitVec 4
  errarg : BitVec 5
  ie : Bool
  roundctr : BitVec 16
  pending : Option CmdOutcome
  host : List HostOp
  turns : List Turn
  reads : List Nat
deriving DecidableEq, Repr

/-- 10_state.md R44: a block with configuration `c` right after reset, with an idle host. -/
def State.resetOf (c : Config) : State where
  cfg := c
  xl := 0
  xr := 0
  key := 0
  a := 0
  b := 0
  r := 0
  cmd := 0
  busy := false
  done := false
  eq := false
  sqzf := true
  cfgerr := c.mismatch
  err := if c.mismatch then 2 else 0
  errarg := 0
  ie := false
  roundctr := 0
  pending := none
  host := []
  turns := []
  reads := []

/-- The machine right after reset, for the open configuration (log 1). -/
def State.reset : State := State.resetOf Config.impl

end Sys2Proof.Machine
end

