-- ==== Sys2Proof/Machine/Flags.lean ====
section
/-! DEFINITION. The words the port reads that are made of fields: STATUS (10_state.md R32), CTRL (R40), ID (R30), the
error codes (60_exceptions.md R119), and the interrupt output (10_state.md R43). -/

namespace Sys2Proof.Machine

/-- The code STATUS.ERR shows for an error (60_exceptions.md R119); 0 is success. -/
def errBits : ErrCode → BitVec 4
  | .invalidInput => 1
  | .configMismatch => 2
  | .illegalCommand => 3
  | .indexRange => 4

/-- STATUS (10_state.md R32): BUSY 0, DONE 1, EQ 2, SQZF 3, CFGERR 4, ERR [11:8], ERRARG [20:16], all else 0. -/
def State.statusWord (s : State) : Nat :=
  s.busy.toNat + s.done.toNat * 2 ^ 1 + s.eq.toNat * 2 ^ 2 + s.sqzf.toNat * 2 ^ 3 + s.cfgerr.toNat * 2 ^ 4
    + s.err.toNat * 2 ^ 8 + s.errarg.toNat * 2 ^ 16

/-- CTRL (10_state.md R40): IE in bit 0, all else 0. -/
def State.ctrlWord (s : State) : Nat := s.ie.toNat

/-- ID[47:32]: the data width (10_state.md R30). A width of 65536 or more does not fit; the spec states no value there
(log 10). -/
def idWidthField (c : Config) : Nat := if c.dw < 65536 then c.dw else (Config.freeIdWidth c.dw).toNat

/-- ID (10_state.md R30): NR [15:0], NC [31:16], DW [47:32], SBOX_EXP [55:48] = 5, VERSION [63:56] = 1. -/
def idWord (c : Config) : Nat :=
  c.nr + c.nc * 2 ^ 16 + idWidthField c * 2 ^ 32 + 5 * 2 ^ 48 + 1 * 2 ^ 56

/-- IRQ: the level IE and DONE (10_state.md R43, 60_exceptions.md R126). -/
def State.irq (s : State) : Bool := s.ie && s.done

end Sys2Proof.Machine
end

