-- ==== Sys2Proof/Decode.lean ====
section
/-! DEFINITION. The decoder of a CMD value, total, rejecting by name (30_encoding.md R65 to R73), and the encoder. The
command word is one value of 32 bits; the table numbers its bits as the register does, so no byte order enters
(20_memory.md R53). -/

namespace Sys2Proof

/-- Why a CMD value decodes to no command (30_encoding.md R70, 60_exceptions.md R120). Every one of them is the block's
error ILLEGAL_COMMAND; none is a stop. -/
inductive Illegal where
  /-- `CMDW[DW-1:32] ≠ 0` (R68) -/
  | upper
  /-- `RSV ≠ 0` (R72) -/
  | reservedBits
  /-- an OP outside the table of R69 (R71) -/
  | reservedOp
  /-- `IMM ≠ 0` with an OP that takes none (R67) -/
  | immediate
deriving DecidableEq, Repr

/-- OP, bits [7:0] (30_encoding.md R66). -/
def cmdOp (v : Nat) : Nat := slice v 7 0

/-- RSV, bits [15:8] (30_encoding.md R66). -/
def cmdRsv (v : Nat) : Nat := slice v 15 8

/-- IMM, bits [31:16] (30_encoding.md R66, R67). -/
def cmdImm (v : Nat) : Nat := slice v 31 16

/-- UPPER, bits [DW-1:32] (30_encoding.md R66, R68). -/
def cmdUpper (v : Nat) : Nat := v / 2 ^ 32

/-- A command that takes no immediate: IMM must be 0 (30_encoding.md R67, R70). -/
def plainCommand (imm : Nat) (i : Instr) : Except Illegal Instr :=
  if imm = 0 then .ok i else .error .immediate

/-- The opcode map of 30_encoding.md R69, with the check on IMM that R70 makes last. -/
def decodeOp (op imm : Nat) : Except Illegal Instr :=
  match op with
  | 0x00 => plainCommand imm .nop
  | 0x01 => plainCommand imm .fadd
  | 0x02 => plainCommand imm .fmul
  | 0x03 => plainCommand imm .fpow
  | 0x04 => plainCommand imm .fred
  | 0x05 => plainCommand imm .feq
  | 0x10 => .ok (.round imm)
  | 0x11 => .ok (.ldc imm)
  | 0x20 => .ok (.fstep imm)
  | 0x21 => plainCommand imm .perm
  | 0x22 => plainCommand imm .enc
  | 0x23 => plainCommand imm .dec
  | 0x30 => plainCommand imm .sinit
  | 0x31 => plainCommand imm .absorb
  | 0x32 => plainCommand imm .squeeze
  | _ => .error .reservedOp

/-- 30_encoding.md R70: the checks in its order. No mode or configuration enters (R73). -/
def decode (v : Nat) : Except Illegal Instr :=
  if cmdUpper v ≠ 0 then .error .upper
  else if cmdRsv v ≠ 0 then .error .reservedBits
  else decodeOp (cmdOp v) (cmdImm v)

/-- Format C (30_encoding.md R66): IMM in bits [31:16], RSV 0, OP in bits [7:0]. -/
def formatC (imm op : Nat) : Nat := imm % 65536 * 65536 + op

/-- The command word of a well-formed command (30_encoding.md R69). -/
def encode : Instr → Nat
  | .nop => formatC 0 0x00
  | .fadd => formatC 0 0x01
  | .fmul => formatC 0 0x02
  | .fpow => formatC 0 0x03
  | .fred => formatC 0 0x04
  | .feq => formatC 0 0x05
  | .round imm => formatC imm 0x10
  | .ldc imm => formatC imm 0x11
  | .fstep imm => formatC imm 0x20
  | .perm => formatC 0 0x21
  | .enc => formatC 0 0x22
  | .dec => formatC 0 0x23
  | .sinit => formatC 0 0x30
  | .absorb => formatC 0 0x31
  | .squeeze => formatC 0 0x32

/-- The command the decoder reads from a table word of `nbits` bits, every bit above them 0. -/
def decodeTableWord (nbits w : Nat) : Option Instr :=
  (decode (w % 2 ^ nbits)).toOption

end Sys2Proof
end

