-- ==== Sys2Proof/Machine/FieldArith.lean ====
section
/-! DEFINITION. The field unit's arithmetic (00_scope.md R16, R17; 41_field_arith.md R85, R91) and the permutation
built from it (42_round.md R93; 43_feistel.md R98 to R100, R104, R105). Every intermediate value is an exact unbounded
integer (41_field_arith.md R85). -/

namespace Sys2Proof.Machine

/-- `canon(v)` (00_scope.md R16). -/
def canon (p v : Nat) : Bool := decide (v < p)

/-- `a +p b` (00_scope.md R16). -/
def addp (p a b : Nat) : Nat := (a + b) % p

/-- `a -p b`: in `[0, P)` even when `a < b` (00_scope.md R16, 41_field_arith.md R91). -/
def subp (p a b : Nat) : Nat := (((a : Int) - (b : Int)) % (p : Int)).toNat

/-- `a *p b`: the full product, then reduced (00_scope.md R16, 41_field_arith.md R87). -/
def mulp (p a b : Nat) : Nat := a * b % p

/-- Square and multiply over the low `fuel` bits of the exponent, from the top one down. -/
def powBits (p a : Nat) : Nat → Nat → Nat
  | 0, _ => 1 % p
  | fuel + 1, e =>
    let h := powBits p a fuel (e / 2)
    if e % 2 = 1 then mulp p (mulp p h h) a else mulp p h h

/-- `powp(a, e) = a^e mod P`, with `powp(a, 0) = 1` (00_scope.md R16). Any evaluation order is conforming
(41_field_arith.md R88); `Laws.powp_eq` proves this one exact. -/
def powp (p a e : Nat) : Nat := powBits p a (e.log2 + 1) e

/-- The S-box `x -> x^5` (00_scope.md R17). -/
def sbox (p x : Nat) : Nat := powp p x 5

/-- The round function `rf(x, k, c) = sbox((x +p k) +p c)` (00_scope.md R17, 42_round.md R93). -/
def rf (p x k c : Nat) : Nat := sbox p (addp p (addp p x k) c)

/-- `round_i` under key `k` on the pair `(l, r)`: it swaps unless `i` is the final round (43_feistel.md R98, R99). -/
def feistelRound (c : Config) (k i : Nat) (lr : Nat × Nat) : Nat × Nat :=
  let t := rf c.p lr.1 k (c.roundConst i)
  if i + 1 < c.nr then (addp c.p lr.2 t, lr.1) else (lr.1, addp c.p lr.2 t)

/-- Rounds `0` to `n - 1` in increasing order. -/
def forwardRounds (c : Config) (k : Nat) : Nat → Nat × Nat → Nat × Nat
  | 0, lr => lr
  | n + 1, lr => feistelRound c k n (forwardRounds c k n lr)

/-- `permute(l, r, k)` (43_feistel.md R100). -/
def permute (c : Config) (l r k : Nat) : Nat × Nat := forwardRounds c k c.nr (l, r)

/-- `unround_i` under key `k` (43_feistel.md R104). -/
def feistelUnround (c : Config) (k i : Nat) (lr : Nat × Nat) : Nat × Nat :=
  if i + 1 < c.nr then (lr.2, subp c.p lr.1 (rf c.p lr.2 k (c.roundConst i)))
  else (lr.1, subp c.p lr.2 (rf c.p lr.1 k (c.roundConst i)))

/-- Inverse rounds `n - 1` down to `0`. -/
def backwardRounds (c : Config) (k : Nat) : Nat → Nat × Nat → Nat × Nat
  | 0, lr => lr
  | n + 1, lr => backwardRounds c k n (feistelUnround c k n lr)

/-- `unpermute(l, r, k)` (43_feistel.md R105). -/
def unpermute (c : Config) (l r k : Nat) : Nat × Nat := backwardRounds c k c.nr (l, r)

end Sys2Proof.Machine
end

