-- ==== Sys2Proof/Machine/Operands.lean ====
section
/-! DEFINITION. The registers as operands: their host addresses (20_memory.md R46), how a field register is read and
written (10_state.md R20), and the checks a command makes before it computes (40_command_execution.md R81, R82). -/

namespace Sys2Proof.Machine

/-- `addr(X)`: the host address of a field register (20_memory.md R46). -/
def fieldAddr : FieldReg → BitVec 5
  | .xl => 0x06
  | .xr => 0x07
  | .key => 0x08
  | .a => 0x09
  | .b => 0x0A
  | .r => 0x0B

/-- The host address of a named register (20_memory.md R46). -/
def regAddr : HostReg → BitVec 5
  | .cmd => 0x00
  | .status => 0x01
  | .ctrl => 0x02
  | .ident => 0x03
  | .prime => 0x04
  | .roundctr => 0x05
  | .field f => fieldAddr f

/-- The register at a host address; `none` for the reserved addresses 0x0C to 0x1F (20_memory.md R46, R49). -/
def regAt (addr : BitVec 5) : Option HostReg :=
  match addr.toNat with
  | 0x00 => some .cmd
  | 0x01 => some .status
  | 0x02 => some .ctrl
  | 0x03 => some .ident
  | 0x04 => some .prime
  | 0x05 => some .roundctr
  | 0x06 => some (.field .xl)
  | 0x07 => some (.field .xr)
  | 0x08 => some (.field .key)
  | 0x09 => some (.field .a)
  | 0x0A => some (.field .b)
  | 0x0B => some (.field .r)
  | _ => none

/-- The value a field register holds (10_state.md R20). -/
def State.fieldVal (s : State) : FieldReg → Nat
  | .xl => s.xl
  | .xr => s.xr
  | .key => s.key
  | .a => s.a
  | .b => s.b
  | .r => s.r

/-- A HostWrite to a field register stores the value unchecked (10_state.md R28, 20_memory.md R48). -/
def State.setField (s : State) (f : FieldReg) (v : Nat) : State :=
  match f with
  | .xl => { s with xl := v }
  | .xr => { s with xr := v }
  | .key => { s with key := v }
  | .a => { s with a := v }
  | .b => { s with b := v }
  | .r => { s with r := v }

/-- 40_command_execution.md R82: the first non-canonical register of the list fails the command with INVALID_INPUT and
its host address; otherwise the command's own outcome. -/
def checked (s : State) : List FieldReg → CmdOutcome → CmdOutcome
  | [], o => o
  | f :: fs, o => if canon s.cfg.p (s.fieldVal f) then checked s fs o else .fail .invalidInput (fieldAddr f)

/-- 40_command_execution.md R81, check 3: a round index must be below NR (60_exceptions.md R122). -/
def indexed (s : State) (imm : Nat) (o : CmdOutcome) : CmdOutcome :=
  if imm < s.cfg.nr then o else .fail .indexRange 0

/-- 40_command_execution.md R81, check 2: a command that reads the constant ROM fails while CFGERR = 1
(60_exceptions.md R121). -/
def romReader (s : State) (o : CmdOutcome) : CmdOutcome :=
  if s.cfgerr then .fail .configMismatch 0 else o

end Sys2Proof.Machine
end

