-- ==== Sys2Proof/Machine/Ops.lean ====
section
/-! DEFINITION. The life cycle every command shares (40_command_execution.md R79 to R83): acceptance, the raising of an
error, completion; the engine's progress (43_feistel.md R103); reset (70_reset_and_hazards.md R137, R138). The block's
errors are status codes, so finishing with `Fail` is all that taking an error does (60_exceptions.md R118, R124). -/

namespace Sys2Proof.Machine

/-- 40_command_execution.md R79: the block accepts CMD value `v`, whose outcome `o` it computes from the state before
this step and keeps in PENDING (R80). -/
def State.accepted (s : State) (v : Nat) (o : CmdOutcome) : State :=
  { s with
    cmd := v, busy := true, done := false, err := 0, errarg := 0, roundctr := 0, pending := some o }

/-- Present a CMD value with its outcome to the block. While BUSY = 1 the write is held and nothing happens
(20_memory.md R51; log 14); otherwise the block accepts it. -/
def issueValue (v : Nat) (o : CmdOutcome) (s : State) : Host.Outcome State Fault Refusal :=
  if s.busy then .next s else .next (s.accepted v o)

/-- Present a command with its outcome: the word stored in CMD is the command's own. -/
def issue (i : Instr) (o : CmdOutcome) (s : State) : Host.Outcome State Fault Refusal :=
  issueValue (encode i) o s

/-- The outcome of a CMD value that decodes to no command (40_command_execution.md R81, check 1; 60_exceptions.md R120). -/
def illegalOutcome : CmdOutcome := .fail .illegalCommand 0

/-- Apply every write of `W` (40_command_execution.md R83). -/
def State.applyWrites (s : State) (w : Writes) : State :=
  { s with
    xl := w.xl.getD s.xl, xr := w.xr.getD s.xr, r := w.r.getD s.r, eq := w.eq.getD s.eq, sqzf := w.sqzf.getD s.sqzf }

/-- The writes an outcome makes: a failed command makes none (40_command_execution.md R81, R83). -/
def outcomeWrites : CmdOutcome → Writes
  | .fail _ _ => {}
  | .ok w _ => w

/-- STATUS.ERR at completion (10_state.md R39). -/
def outcomeErr : CmdOutcome → BitVec 4
  | .fail code _ => errBits code
  | .ok _ _ => 0

/-- STATUS.ERRARG at completion (10_state.md R39). -/
def outcomeArg : CmdOutcome → BitVec 5
  | .fail _ arg => arg
  | .ok _ _ => 0

/-- The final ROUNDCTR of a command (10_state.md R41): 0 for a failed one. -/
def finalCount : CmdOutcome → Nat
  | .fail _ _ => 0
  | .ok _ n => n

/-- 40_command_execution.md R83: the one completion step, successful or failed. -/
def State.finish (s : State) (o : CmdOutcome) : State :=
  { s.applyWrites (outcomeWrites o) with
    err := outcomeErr o, errarg := outcomeArg o, roundctr := BitVec.ofNat 16 (finalCount o),
    busy := false, done := true, pending := none }

/-- The engine completes the pending command; with none pending its step is not enabled (40_command_execution.md R83). -/
def State.complete (s : State) : State :=
  match s.pending with
  | none => s
  | some o => s.finish o

/-- The engine may count one more evaluated round, up to the command's final count (10_state.md R41, 43_feistel.md
R103; log 5). -/
def State.progressed (s : State) : State :=
  match s.pending with
  | none => s
  | some o => if s.roundctr.toNat < finalCount o then { s with roundctr := s.roundctr + 1 } else s

/-- A cycle with `rst = 1` (70_reset_and_hazards.md R137): the state is the reset state and a pending command is
discarded. The host's outstanding transaction stays, to complete after reset, unless the host drops it (R138; log 11). -/
def State.resetCycle (s : State) (dropRequest : Bool) : State :=
  { State.resetOf s.cfg with
    host := if dropRequest then s.host.tail else s.host, turns := s.turns, reads := s.reads }

end Sys2Proof.Machine
end

