-- ==== Sys2Proof/Machine/Cipher.lean ====
section
/-! DEFINITION. Cipher mode (44_sponge_cipher.md R114, R115). -/

namespace Sys2Proof.Machine

/-- ENC, 44_sponge_cipher.md R114. -/
def execEnc (s : State) : Host.Outcome State Fault Refusal :=
  let lr := permute s.cfg s.xl s.xr s.key
  issue .enc (romReader s (checked s [.xl, .xr, .key] (.ok { xl := some lr.1, xr := some lr.2 } s.cfg.nr))) s

/-- DEC, 44_sponge_cipher.md R115: the inverse permutation, not PERM again (90_conflicts.md C2). -/
def execDec (s : State) : Host.Outcome State Fault Refusal :=
  let lr := unpermute s.cfg s.xl s.xr s.key
  issue .dec (romReader s (checked s [.xl, .xr, .key] (.ok { xl := some lr.1, xr := some lr.2 } s.cfg.nr))) s

end Sys2Proof.Machine
end

