-- ==== Sys2Proof/Machine/Control.lean ====
section
/-! DEFINITION. NOP (40_command_execution.md R84). -/

namespace Sys2Proof.Machine

/-- NOP, 40_command_execution.md R84. -/
def execNop (s : State) : Host.Outcome State Fault Refusal :=
  issue .nop (.ok {} 0) s

end Sys2Proof.Machine
end

