-- ==== Sys2Proof/Machine/Feistel.lean ====
section
/-! DEFINITION. The Feistel engine's commands (43_feistel.md R101, R102). -/

namespace Sys2Proof.Machine

/-- FSTEP, 43_feistel.md R101. -/
def execFstep (imm : Nat) (s : State) : Host.Outcome State Fault Refusal :=
  let lr := feistelRound s.cfg s.key imm (s.xl, s.xr)
  issue (.fstep imm)
    (romReader s (indexed s imm (checked s [.xl, .xr, .key]
      (.ok { xl := some lr.1, xr := some lr.2 } 1)))) s

/-- PERM, 43_feistel.md R102. -/
def execPerm (s : State) : Host.Outcome State Fault Refusal :=
  let lr := permute s.cfg s.xl s.xr s.key
  issue .perm (romReader s (checked s [.xl, .xr, .key] (.ok { xl := some lr.1, xr := some lr.2 } s.cfg.nr))) s

end Sys2Proof.Machine
end

