-- ==== Sys2Proof/Machine/FieldUnit.lean ====
section
/-! DEFINITION. The field unit's commands (41_field_arith.md R86 to R90). -/

namespace Sys2Proof.Machine

/-- FADD, 41_field_arith.md R86. -/
def execFadd (s : State) : Host.Outcome State Fault Refusal :=
  issue .fadd (checked s [.a, .b] (.ok { r := some (addp s.cfg.p s.a s.b) } 0)) s

/-- FMUL, 41_field_arith.md R87. -/
def execFmul (s : State) : Host.Outcome State Fault Refusal :=
  issue .fmul (checked s [.a, .b] (.ok { r := some (mulp s.cfg.p s.a s.b) } 0)) s

/-- FPOW, 41_field_arith.md R88: the exponent B is never checked. -/
def execFpow (s : State) : Host.Outcome State Fault Refusal :=
  issue .fpow (checked s [.a] (.ok { r := some (powp s.cfg.p s.a s.b) } 0)) s

/-- FRED, 41_field_arith.md R89: A is not checked. -/
def execFred (s : State) : Host.Outcome State Fault Refusal :=
  issue .fred (.ok { r := some (s.a % s.cfg.p) } 0) s

/-- FEQ, 41_field_arith.md R90. -/
def execFeq (s : State) : Host.Outcome State Fault Refusal :=
  let e : Bool := s.a == s.b
  issue .feq (checked s [.a, .b] (.ok { r := some e.toNat, eq := some e } 0)) s

end Sys2Proof.Machine
end

