-- ==== Sys2Proof/Machine/RoundFunction.lean ====
section
/-! DEFINITION. The round function's commands (42_round.md R96, R97). -/

namespace Sys2Proof.Machine

/-- ROUND, 42_round.md R96. -/
def execRound (imm : Nat) (s : State) : Host.Outcome State Fault Refusal :=
  issue (.round imm)
    (romReader s (indexed s imm (checked s [.a, .key]
      (.ok { r := some (rf s.cfg.p s.a s.key (s.cfg.roundConst imm)) } 0)))) s

/-- LDC, 42_round.md R97. -/
def execLdc (imm : Nat) (s : State) : Host.Outcome State Fault Refusal :=
  issue (.ldc imm) (romReader s (indexed s imm (.ok { r := some (s.cfg.roundConst imm) } 0))) s

end Sys2Proof.Machine
end

