-- ==== Sys2Proof/Machine/Sponge.lean ====
section
/-! DEFINITION. Hash mode (44_sponge_cipher.md R108 to R110). -/

namespace Sys2Proof.Machine

/-- SINIT, 44_sponge_cipher.md R108: no operand is checked. -/
def execSinit (s : State) : Host.Outcome State Fault Refusal :=
  issue .sinit (.ok { xl := some 0, xr := some 0, sqzf := some true } 0) s

/-- ABSORB, 44_sponge_cipher.md R109: legal in any phase (R113). -/
def execAbsorb (s : State) : Host.Outcome State Fault Refusal :=
  let lr := permute s.cfg (addp s.cfg.p s.xl s.a) s.xr s.key
  issue .absorb
    (romReader s (checked s [.xl, .xr, .key, .a]
      (.ok { xl := some lr.1, xr := some lr.2, sqzf := some true } s.cfg.nr))) s

/-- SQUEEZE, 44_sponge_cipher.md R110: all three operands are checked even when no permutation runs. -/
def execSqueeze (s : State) : Host.Outcome State Fault Refusal :=
  let lr := permute s.cfg s.xl s.xr s.key
  issue .squeeze
    (romReader s (checked s [.xl, .xr, .key]
      (if s.sqzf then .ok { r := some s.xl, sqzf := some false } 0
       else .ok { xl := some lr.1, xr := some lr.2, r := some lr.1, sqzf := some false } s.cfg.nr))) s

end Sys2Proof.Machine
end

