-- ==== Sys2Proof/Machine/Dispatch.lean ====
section
/-! DEFINITION. The meaning of every command of 30_encoding.md R69: one arm per constructor, each one direct call. -/

namespace Sys2Proof.Machine

def exec (i : Instr) (s : State) : Host.Outcome State Fault Refusal :=
  match i with
  | .nop => Sys2Proof.Machine.execNop s
  | .fadd => Sys2Proof.Machine.execFadd s
  | .fmul => Sys2Proof.Machine.execFmul s
  | .fpow => Sys2Proof.Machine.execFpow s
  | .fred => Sys2Proof.Machine.execFred s
  | .feq => Sys2Proof.Machine.execFeq s
  | .round imm => Sys2Proof.Machine.execRound imm s
  | .ldc imm => Sys2Proof.Machine.execLdc imm s
  | .fstep imm => Sys2Proof.Machine.execFstep imm s
  | .perm => Sys2Proof.Machine.execPerm s
  | .enc => Sys2Proof.Machine.execEnc s
  | .dec => Sys2Proof.Machine.execDec s
  | .sinit => Sys2Proof.Machine.execSinit s
  | .absorb => Sys2Proof.Machine.execAbsorb s
  | .squeeze => Sys2Proof.Machine.execSqueeze s

end Sys2Proof.Machine
end

