-- ==== Sys2Proof/WellFormed.lean ====
section
/-! DEFINITION. The checks that make a command, a transaction and a host line something the port can carry. -/

namespace Sys2Proof

/-- A command's immediate is a 16-bit round index (30_encoding.md R67); the other commands carry none. -/
def Instr.wellFormed : Instr → Bool
  | .round imm => decide (imm < 65536)
  | .ldc imm => decide (imm < 65536)
  | .fstep imm => decide (imm < 65536)
  | .nop => true
  | .fadd => true
  | .fmul => true
  | .fpow => true
  | .fred => true
  | .feq => true
  | .perm => true
  | .enc => true
  | .dec => true
  | .sinit => true
  | .absorb => true
  | .squeeze => true

/-- The `DW` wires of `wdata` carry `v` (20_memory.md R45). `DW ≥ 64` (00_scope.md R14) is used first, so that a value of
64 bits or fewer is seen to fit whatever `DW` is. -/
def Config.carries (c : Config) (v : Nat) : Bool := decide (v < 2 ^ 64) || decide (v < 2 ^ c.dw)

/-- A transaction is one the port can carry: any 5-bit address, and a `DW`-bit value (20_memory.md R45, R52). -/
def HostOp.wellFormed (c : Config) : HostOp → Bool
  | .read _ => true
  | .write _ v => c.carries v
  | .poll => true

/-- A host line is one the assembler can write: well-formed commands and `DW`-bit values (30_encoding.md R75). -/
def HostLine.wellFormed (c : Config) : HostLine → Bool
  | .wr _ v => c.carries v
  | .rd _ => true
  | .command i => i.wellFormed
  | .wait => true
  | .clrdone => true
  | .ien => true
  | .idis => true
  | .permute l r k => c.carries l && c.carries r && c.carries k
  | .encrypt l r k => c.carries l && c.carries r && c.carries k
  | .decrypt l r k => c.carries l && c.carries r && c.carries k
  | .hash k xs _ => c.carries k && xs.all c.carries

end Sys2Proof
end

