-- ==== Sys2Proof/Machine/HostPort.lean ====
section
/-! DEFINITION. The host port: reads and writes of the register map (20_memory.md R45 to R51), the outstanding
transaction's step, the port's output signals, and the serialised form of a register value (R53). -/

namespace Sys2Proof.Machine

/-- What a HostRead of a named register returns (20_memory.md R46). KEY reads 0 (10_state.md R24). -/
def readReg (s : State) : HostReg → Nat
  | .cmd => s.cmd
  | .status => s.statusWord
  | .ctrl => s.ctrlWord
  | .ident => idWord s.cfg
  | .prime => s.cfg.p
  | .roundctr => s.roundctr.toNat
  | .field .xl => s.xl
  | .field .xr => s.xr
  | .field .key => 0
  | .field .a => s.a
  | .field .b => s.b
  | .field .r => s.r

/-- `HostRead(addr)` (20_memory.md R47); reserved addresses read 0 (R49). -/
def hostRead (s : State) (addr : BitVec 5) : Nat :=
  match regAt addr with
  | some reg => readReg s reg
  | none => 0

/-- A CMD value presented to the block: the command it decodes to, or an illegal one, which fails at completion
(40_command_execution.md R79, R81; 30_encoding.md R70). -/
def issueWord (v : Nat) (s : State) : Host.Outcome State Fault Refusal :=
  match decode v with
  | .ok i => exec i s
  | .error _ => issueValue v illegalOutcome s

/-- A HostWrite to a named register (20_memory.md R46): STATUS bit 1 clears DONE, CTRL takes bit 0, read-only registers
ignore it (R50). -/
def writeReg (reg : HostReg) (v : Nat) (s : State) : Host.Outcome State Fault Refusal :=
  match reg with
  | .cmd => issueWord v s
  | .status => .next (if slice v 1 1 = 1 then { s with done := false } else s)
  | .ctrl => .next { s with ie := slice v 0 0 == 1 }
  | .ident => .next s
  | .prime => .next s
  | .roundctr => .next s
  | .field f => .next (s.setField f v)

/-- `HostWrite(addr, v)` (20_memory.md R48); reserved addresses ignore it (R49). A value the `DW` wires cannot carry is
no transaction (log 8). -/
def hostWrite (addr : BitVec 5) (v : Nat) (s : State) : Host.Outcome State Fault Refusal :=
  if s.cfg.carries v then
    match regAt addr with
    | some reg => writeReg reg v s
    | none => .next s
  else .refused .notAPortValue

/-- Does this register belong to those whose accesses wait while BUSY = 1: the field registers for both, CMD for a write
(20_memory.md R51)? -/
def waitsWhileBusy (write : Bool) : Option HostReg → Bool
  | some .cmd => write
  | some (.field _) => true
  | _ => false

/-- The hold rule (20_memory.md R51): the block does not complete this transaction now. -/
def held (s : State) : HostOp → Bool
  | .read addr => s.busy && waitsWhileBusy false (regAt addr)
  | .write addr _ => s.busy && waitsWhileBusy true (regAt addr)
  | .poll => false

/-- A completed HostRead delivers its value to the host (70_reset_and_hazards.md R148); no block state changes
(20_memory.md R47). -/
def State.delivered (s : State) (v : Nat) : State := { s with reads := s.reads ++ [v] }

/-- The host's transaction is done; the next one becomes outstanding (20_memory.md R45). -/
def State.popHost (s : State) : State := { s with host := s.host.tail }

/-- The schedule with its next turn taken off (log 4). -/
def State.withTurns (s : State) (ts : List Turn) : State := { s with turns := ts }

/-- Complete one transaction that is not held; `s` has it at the head of `host`. A polling read repeats until BUSY reads
0 (30_encoding.md R76; log 12). -/
def perform (op : HostOp) (s : State) : Host.Outcome State Fault Refusal :=
  match op with
  | .read addr => .next (s.popHost.delivered (hostRead s addr))
  | .write addr v => hostWrite addr v s.popHost
  | .poll => .next ((if s.busy then s else s.popHost).delivered s.statusWord)

/-- The host's turn: its outstanding transaction completes, or waits because it is held, or there is none. -/
def hostMove (s : State) : Host.Outcome State Fault Refusal :=
  match s.host with
  | [] => .next s
  | op :: _ => if held s op then .next s else perform op s

/-- With no turn left in the schedule: a pending command completes, which it must do in finite time
(70_reset_and_hazards.md R146); otherwise the host moves (log 4). -/
def defaultMove (s : State) : Host.Outcome State Fault Refusal :=
  if s.pending.isSome then .next s.complete else hostMove s

/-- One turn of the schedule (20_memory.md R59). -/
def takeTurn (t : Turn) (s : State) : Host.Outcome State Fault Refusal :=
  match t with
  | .host => hostMove s
  | .progress => .next s.progressed
  | .complete => .next s.complete
  | .reset dropRequest => .next (s.resetCycle dropRequest)

/-- `rst` in this step (20_memory.md R45): a reset turn is a cycle with `rst = 1`. -/
def rst (s : State) : Bool :=
  match s.turns with
  | .reset _ :: _ => true
  | .host :: _ => false
  | .progress :: _ => false
  | .complete :: _ => false
  | [] => false

/-- The transaction the port serves in this step: the host's outstanding one when it is the host that moves, none in an
engine step or with `rst = 1` (20_memory.md R45, R59; log 20). -/
def portOp (s : State) : Option HostOp :=
  match s.turns with
  | [] => if s.pending.isSome then none else s.host.head?
  | .host :: _ => s.host.head?
  | .progress :: _ => none
  | .complete :: _ => none
  | .reset _ :: _ => none

/-- `ack` in this step (20_memory.md R45): this step completes the outstanding transaction. -/
def portAck (s : State) : Bool :=
  match portOp s with
  | none => false
  | some op => !held s op

/-- `rdata` in this step (20_memory.md R45): valid only with `req = 1`, `we = 0`, `ack = 1`; elsewhere no value (log 20). -/
def rdata (s : State) : Option Nat :=
  match portOp s with
  | some (.read addr) => if portAck s then some (hostRead s addr) else none
  | some .poll => if portAck s then some s.statusWord else none
  | some (.write _ _) => none
  | none => none

/-- The bytes of a register value outside the block, lowest byte first; `DW` is rounded up to a multiple of 8
(20_memory.md R53). -/
def toBytes (dw : Nat) (v : Nat) : List (BitVec 8) :=
  (List.range ((dw + 7) / 8)).map fun j => BitVec.ofNat 8 (slice v (8 * j + 7) (8 * j))

/-- The register value a byte sequence stands for, lowest byte first (20_memory.md R53). -/
def ofBytes : List (BitVec 8) → Nat
  | [] => 0
  | b :: bs => b.toNat + 256 * ofBytes bs

end Sys2Proof.Machine
end

