-- ==== Sys2Proof/Machine/HostProgram.lean ====
section
/-! DEFINITION. Host programs (30_encoding.md R75 to R77): each line's exact expansion into transactions. -/

namespace Sys2Proof.Machine

/-- `wr <reg>, v` (30_encoding.md R75). -/
def wrOp (reg : HostReg) (v : Nat) : HostOp := .write (regAddr reg) v

/-- `rd <reg>` (30_encoding.md R75). -/
def rdOp (reg : HostReg) : HostOp := .read (regAddr reg)

/-- A command mnemonic is `wr CMD, <command word>` (30_encoding.md R75). -/
def commandOp (i : Instr) : HostOp := wrOp .cmd (encode i)

/-- The source's two-branch calls: load the pair and the key, run the command, read the pair (30_encoding.md R77). -/
def pairCall (i : Instr) (l r k : Nat) : List HostOp :=
  [wrOp (.field .xl) l, wrOp (.field .xr) r, wrOp (.field .key) k, commandOp i, rdOp (.field .xl), rdOp (.field .xr)]

/-- The transactions of one line (30_encoding.md R75, R76, R77). -/
def expandLine : HostLine → List HostOp
  | .wr reg v => [wrOp reg v]
  | .rd reg => [rdOp reg]
  | .command i => [commandOp i]
  | .wait => [.poll]
  | .clrdone => [wrOp .status 2]
  | .ien => [wrOp .ctrl 1]
  | .idis => [wrOp .ctrl 0]
  | .permute l r k => pairCall .perm l r k
  | .encrypt l r k => pairCall .enc l r k
  | .decrypt l r k => pairCall .dec l r k
  | .hash k xs m =>
    [wrOp (.field .key) k, commandOp .sinit]
      ++ xs.flatMap (fun x => [wrOp (.field .a) x, commandOp .absorb])
      ++ (List.replicate m [commandOp .squeeze, rdOp (.field .r)]).flatten

/-- A host program, given to the host after what it already has to do (log 6). -/
def State.withProgram (s : State) (lines : List HostLine) : State :=
  { s with host := s.host ++ lines.flatMap expandLine }

/-- 70_reset_and_hazards.md R148: the run has ended when the last transaction has completed and nothing is pending. -/
def State.runEnded (s : State) : Bool := s.host.isEmpty && s.pending.isNone

end Sys2Proof.Machine
end

