-- ==== Sys2Proof/Machine/Step.lean ====
section
/-! DEFINITION. One step of the machine (20_memory.md R59), and the placing of a command where the next step takes it. -/

namespace Sys2Proof.Machine

/-- One step: the next turn of the schedule, or the default one when none is left (log 4). -/
def step (s : State) : Host.Outcome State Fault Refusal :=
  match s.turns with
  | [] => defaultMove s
  | t :: ts => takeTurn t (s.withTurns ts)

/-- `s` with the CMD write of word `w` outstanding, the host's turn next, and the block idle, so that nothing holds the
write: the very next step accepts that command (log 6, log 7). -/
def State.withFetchWord (s : State) (nbits w : Nat) : State :=
  { s with
    host := .write 0x00 (w % 2 ^ nbits) :: s.host, turns := .host :: s.turns, busy := false, pending := none }

end Sys2Proof.Machine
end

