-- ==== Sys2Proof/Safety.lean ====
section
/-! DEFINITION. What every reachable state of the block is like, in the terms the claims use: the ranges of 10_state.md
R19, what BUSY, DONE, ERR and PENDING say together (R33, R34, R39, R42), and what a command may write (R28). -/

namespace Sys2Proof.Machine

/-- An optional write is of a field element. -/
def canonicalWrite (p : Nat) : Option Nat → Prop
  | none => True
  | some v => v < p

/-- Every value an outcome writes into a field register is canonical (10_state.md R28), and its final count is at most
NR (R41). -/
structure CmdOutcome.Lawful (c : Config) (o : CmdOutcome) : Prop where
  xl : canonicalWrite c.p (outcomeWrites o).xl
  xr : canonicalWrite c.p (outcomeWrites o).xr
  r : canonicalWrite c.p (outcomeWrites o).r
  count : finalCount o ≤ c.nr

/-- A pending command is lawful, and ROUNDCTR has not passed its final count (10_state.md R41). -/
def PendingLawful (s : State) : Prop :=
  match s.pending with
  | none => True
  | some o => CmdOutcome.Lawful s.cfg o ∧ s.roundctr.toNat ≤ finalCount o

/-- The invariant of the block. -/
structure State.Inv (s : State) : Prop where
  /-- 10_state.md R19: the registers hold `DW`-bit values -/
  xl : s.xl < 2 ^ s.cfg.dw
  xr : s.xr < 2 ^ s.cfg.dw
  key : s.key < 2 ^ s.cfg.dw
  a : s.a < 2 ^ s.cfg.dw
  b : s.b < 2 ^ s.cfg.dw
  r : s.r < 2 ^ s.cfg.dw
  cmd : s.cmd < 2 ^ s.cfg.dw
  /-- R33, R42: BUSY is 1 exactly while a command is pending -/
  busy_pending : s.busy = s.pending.isSome
  /-- R34: DONE is 0 while BUSY is 1 -/
  busy_done : s.busy = true → s.done = false
  /-- R39: ERR and ERRARG are 0 while BUSY is 1 -/
  busy_err : s.busy = true → s.err = 0 ∧ s.errarg = 0
  /-- R37: CFGERR is the mismatch found at reset -/
  cfgerr : s.cfgerr = s.cfg.mismatch
  /-- R39: the values 5 to 15 of ERR are never produced -/
  err_le : s.err.toNat ≤ 4
  /-- R41: ROUNDCTR never passes NR -/
  count : s.roundctr.toNat ≤ s.cfg.nr
  pending : PendingLawful s
  /-- 20_memory.md R45: the host's transactions are ones the port carries -/
  host : ∀ op ∈ s.host, op.wellFormed s.cfg = true

end Sys2Proof.Machine
end

