-- ==== Sys2Proof/Certificates/Slice0/Obligations.lean ====
section
/-! DEFINITION. The statements for the provers. Each says what a numbered rule of spec/ says, or a property of the whole
machine that follows from the rules. The reference forms under `Sys2Proof.Claims` are written from the spec's own
formulas, independently of the model's functions. -/

namespace Sys2Proof.Claims

open Sys2Proof.Machine

/-! ### Reference forms -/

/-- What a command that succeeds leaves of every field but the registers it writes (40_command_execution.md R79, R83):
CMD holds the word `v`, ROUNDCTR the final count `n`. -/
def succeeded (s : State) (v n : Nat) : State :=
  { s with
    cmd := v, busy := false, done := true, err := 0, errarg := 0, roundctr := BitVec.ofNat 16 n, pending := none }

/-- All that a command that fails with `code` and `arg` changes (60_exceptions.md R124). -/
def failedWith (s : State) (v : Nat) (code : BitVec 4) (arg : BitVec 5) : State :=
  { s with
    cmd := v, busy := false, done := true, err := code, errarg := arg, roundctr := 0, pending := none }

/-- The acceptance of CMD value `v`, with some outcome kept in PENDING (40_command_execution.md R79). -/
def AcceptedFrom (s t : State) (v : Nat) : Prop :=
  ∃ o, t = { s with
    cmd := v, busy := true, done := false, err := 0, errarg := 0, roundctr := 0, pending := some o }

/-- Command `i`, with word `v`, is accepted in `s`, and its completion leaves `u`. -/
def Completes (i : Instr) (v : Nat) (s u : State) : Prop :=
  ∃ t, exec i s = .next t ∧ AcceptedFrom s t v ∧ t.complete = u

/-- The ROM the commands read is the one CFGERR speaks of (10_state.md R37), as in every reachable state. -/
def RomFlagTrue (s : State) : Prop := s.cfgerr = s.cfg.mismatch

/-- `rf(x, k, C[i])` as 42_round.md R93 writes it. -/
def refRound (c : Config) (k i x : Nat) : Nat := (x + k + c.consts.getD i 0) ^ 5 % c.p

/-- One forward Feistel round, 43_feistel.md R98 and R99. -/
def refStep (c : Config) (k : Nat) (lr : Nat × Nat) (i : Nat) : Nat × Nat :=
  if i < c.nr - 1 then ((lr.2 + refRound c k i lr.1) % c.p, lr.1)
  else (lr.1, (lr.2 + refRound c k i lr.1) % c.p)

/-- The loop of 43_feistel.md R100. -/
def refPermute (c : Config) (l r k : Nat) : Nat × Nat := (List.range c.nr).foldl (refStep c k) (l, r)

/-- `(a - t) mod P` for `t < P` (41_field_arith.md R91). -/
def refSub (p a t : Nat) : Nat := (a + p - t) % p

/-- One inverse round that undoes a swap, 43_feistel.md R104. -/
def refUnstep (c : Config) (k : Nat) (lr : Nat × Nat) (i : Nat) : Nat × Nat :=
  (lr.2, refSub c.p lr.1 (refRound c k i lr.2))

/-- The loop of 43_feistel.md R105: first the final round, then rounds `NR - 2` down to 0. -/
def refUnpermute (c : Config) (l r k : Nat) : Nat × Nat :=
  (List.range (c.nr - 1)).reverse.foldl (refUnstep c k) (l, refSub c.p r (refRound c k (c.nr - 1) l))

/-- ConstOps (40_command_execution.md R81). -/
def readsRom : Instr → Bool
  | .round _ | .ldc _ | .fstep _ | .perm | .enc | .dec | .absorb | .squeeze => true
  | _ => false

/-- The round index of a command that has one (30_encoding.md R67). -/
def indexOf : Instr → Option Nat
  | .round imm | .ldc imm | .fstep imm => some imm
  | _ => none

/-- The checked operands of a command with their host addresses, in check order (30_encoding.md R74). -/
def operandsOf (s : State) : Instr → List (Nat × BitVec 5)
  | .fadd | .fmul | .feq => [(s.a, 0x09), (s.b, 0x0A)]
  | .fpow => [(s.a, 0x09)]
  | .round _ => [(s.a, 0x09), (s.key, 0x08)]
  | .fstep _ | .perm | .enc | .dec | .squeeze => [(s.xl, 0x06), (s.xr, 0x07), (s.key, 0x08)]
  | .absorb => [(s.xl, 0x06), (s.xr, 0x07), (s.key, 0x08), (s.a, 0x09)]
  | .nop | .fred | .ldc _ | .sinit => []

/-- The first error of a decoded command, code and argument (60_exceptions.md R125, items 2 to 4). -/
def firstError (s : State) (i : Instr) : Option (BitVec 4 × BitVec 5) :=
  if readsRom i = true ∧ s.cfgerr = true then some (2, 0)
  else if ∃ n ∈ indexOf i, s.cfg.nr ≤ n then some (4, 0)
  else ((operandsOf s i).find? fun x => decide (s.cfg.p ≤ x.1)).map fun x => (1, x.2)

/-- The opcodes of 30_encoding.md R69. -/
def assignedOps : List Nat :=
  [0x00, 0x01, 0x02, 0x03, 0x04, 0x05, 0x10, 0x11, 0x20, 0x21, 0x22, 0x23, 0x30, 0x31, 0x32]

/-- The conditions of 60_exceptions.md R120. -/
def IllegalValue (v : Nat) : Prop :=
  v / 2 ^ 32 ≠ 0 ∨ v / 2 ^ 8 % 256 ≠ 0 ∨ v % 256 ∉ assignedOps ∨
    (v / 2 ^ 16 % 65536 ≠ 0 ∧ v % 256 ∉ [0x10, 0x11, 0x20])

/-- An illegal value, accepted by an idle block, fails with ILLEGAL_COMMAND and ERRARG 0 (60_exceptions.md R120). -/
def FailsAsIllegal (v : Nat) : Prop :=
  ∀ s : State, s.busy = false → ∃ t, issueWord v s = .next t ∧ AcceptedFrom s t v ∧ t.complete = failedWith s v 3 0

/-- The "Encoding" and the ILLEGAL_COMMAND line of a command without an index: `w` is its only word, and any other value
with its OP is illegal. -/
def OnlyWord (i : Instr) (w : Nat) : Prop :=
  (∀ v, decode v = .ok i ↔ v = w) ∧ ∀ v, v % 256 = w → v ≠ w → FailsAsIllegal v

/-- The same for a command with an index: `(imm << 16) OR op` is its only word, and a value with its OP is illegal if
RSV or UPPER is not 0. -/
def OnlyIndexedWord (i : Instr) (imm op : Nat) : Prop :=
  (∀ v, decode v = .ok i ↔ v = imm * 65536 + op) ∧
    ∀ v, v % 256 = op → v / 2 ^ 8 % 256 ≠ 0 ∨ v / 2 ^ 32 ≠ 0 → FailsAsIllegal v

/-- The table of 20_memory.md R46, column "HostRead returns". -/
def mapRead (s : State) (addr : Nat) : Nat :=
  if addr = 0x00 then s.cmd
  else if addr = 0x01 then s.statusWord
  else if addr = 0x02 then s.ie.toNat
  else if addr = 0x03 then idWord s.cfg
  else if addr = 0x04 then s.cfg.p
  else if addr = 0x05 then s.roundctr.toNat
  else if addr = 0x06 then s.xl
  else if addr = 0x07 then s.xr
  else if addr = 0x08 then 0
  else if addr = 0x09 then s.a
  else if addr = 0x0A then s.b
  else if addr = 0x0B then s.r
  else 0

/-- The table of 20_memory.md R46, column "HostWrite effect", for every address but CMD. -/
def mapWrite (s : State) (addr v : Nat) : State :=
  if addr = 0x01 then (if v / 2 % 2 = 1 then { s with done := false } else s)
  else if addr = 0x02 then { s with ie := decide (v % 2 = 1) }
  else if addr = 0x06 then { s with xl := v }
  else if addr = 0x07 then { s with xr := v }
  else if addr = 0x08 then { s with key := v }
  else if addr = 0x09 then { s with a := v }
  else if addr = 0x0A then { s with b := v }
  else if addr = 0x0B then { s with r := v }
  else s

/-- The transactions that 20_memory.md R51 holds while BUSY = 1. -/
def waits : HostOp → Bool
  | .read addr => decide (0x06 ≤ addr.toNat ∧ addr.toNat ≤ 0x0B)
  | .write addr _ => decide (addr.toNat = 0 ∨ (0x06 ≤ addr.toNat ∧ addr.toNat ≤ 0x0B))
  | .poll => false

/-- What completing transaction `op` does, with `rest` outstanding after it (20_memory.md R46 to R48; 30_encoding.md R76:
`wait` goes on while BUSY = 1; log 12). -/
def portEffect (op : HostOp) (rest : List HostOp) (s : State) : Host.Outcome State Fault Refusal :=
  match op with
  | .read addr => .next { s with host := rest, reads := s.reads ++ [mapRead s addr.toNat] }
  | .write addr v =>
    if addr.toNat = 0 then issueWord v { s with host := rest } else .next (mapWrite { s with host := rest } addr.toNat v)
  | .poll => .next { s with host := if s.busy = true then .poll :: rest else rest, reads := s.reads ++ [s.statusWord] }

/-- The next step is the host's, and leaves the turns `ts`: the schedule names it, or has no turn left and nothing is
pending (log 4). -/
def HostMovesNext (s : State) (ts : List Turn) : Prop :=
  s.turns = .host :: ts ∨ s.turns = [] ∧ ts = [] ∧ s.pending = none

/-- FSTEP 0, FSTEP 1, … FSTEP n-1, each run to its completion. -/
def singleSteps : Nat → State → Option State
  | 0, s => some s
  | n + 1, s =>
    match singleSteps n s with
    | none => none
    | some u =>
      match exec (.fstep n) u with
      | .next t => some t.complete
      | _ => none

end Sys2Proof.Claims

open Sys2Proof Sys2Proof.Machine Sys2Proof.Claims

/-! ### Encoding -/

/-- 30_encoding.md R66 to R70: decoding the word of a well-formed command gives that command, with every immediate. -/
def Obligations.DecodeOfEncodeIsTheCommand : Prop :=
  ∀ i : Instr, i.wellFormed = true → decode (encode i) = .ok i

/-- 30_encoding.md R70: a value decodes to a command only if it is that command's one word, so no bit of it is ignored. -/
def Obligations.DecodedValueIsTheCommandsWord : Prop :=
  ∀ (v : Nat) (i : Instr), decode v = .ok i → i.wellFormed = true ∧ encode i = v

/-- 30_encoding.md R78: the worked encodings. -/
def Obligations.WorkedEncodingsDecode : Prop :=
  decode 0x00030010 = .ok (.round 3) ∧ decode 0x00DB0020 = .ok (.fstep 219) ∧ decode 0x00000011 = .ok (.ldc 0) ∧
    decode 0x00000001 = .ok .fadd ∧
    ∀ v ∈ [0x00010001, 0x00000100, 0x00000006], ∀ s : State, s.busy = false →
      ∃ t, issueWord v s = .next t ∧ t.complete = failedWith s v 3 0

/-- 60_exceptions.md R120: exactly these values are illegal commands; they record ERRARG 0 and stay readable in CMD. -/
def Obligations.IllegalCommandsFailAndStayReadable : Prop :=
  (∀ v, (∃ e, decode v = .error e) ↔ IllegalValue v) ∧
    ∀ (s : State) (v : Nat), s.busy = false → IllegalValue v →
      ∃ t, issueWord v s = .next t ∧ AcceptedFrom s t v ∧ t.complete = failedWith s v 3 0 ∧
        hostRead t 0x00 = v ∧ hostRead t.complete 0x00 = v

/-! ### The step -/

/-- 20_memory.md R63, 40_command_execution.md R79: when a CMD write is outstanding, its value decodes to a command and
the block is idle, the step is that command's meaning, with the turn and the transaction taken off. The schedule is the
model's choice (log 4), and so is `withFetchWord` (log 6, log 7). -/
def Obligations.StepRunsTheDecodedCommand : Prop :=
  (∀ (s : State) (v : Nat) (i : Instr) (rest : List HostOp) (ts : List Turn),
    s.host = .write 0x00 v :: rest → s.busy = false → v < 2 ^ s.cfg.dw → decode v = .ok i →
      (s.turns = .host :: ts → step s = exec i { s with turns := ts, host := rest }) ∧
      (s.turns = [] → s.pending = none → step s = exec i { s with host := rest })) ∧
    ∀ (s : State) (nbits w : Nat) (i : Instr), decodeTableWord nbits w = some i →
      step (s.withFetchWord nbits w) = exec i { s with busy := false, pending := none }

/-- 40_command_execution.md R83: the completion step, and that it is not enabled with nothing pending. When it happens, on
a turn that names it or with no turn left, is the model's choice (log 4). -/
def Obligations.CompletionStepWritesTheOutcome : Prop :=
  (∀ (s : State) (ts : List Turn), s.turns = .complete :: ts → s.pending = none → step s = .next { s with turns := ts }) ∧
  ∀ (s : State) (ts : List Turn), (s.turns = .complete :: ts ∨ s.turns = [] ∧ ts = []) →
    (∀ code arg, s.pending = some (.fail code arg) →
      step s = .next { s with
        turns := ts, err := errBits code, errarg := arg, roundctr := 0, busy := false, done := true, pending := none }) ∧
    ∀ w n, s.pending = some (.ok w n) →
      step s = .next { s with
        turns := ts, xl := w.xl.getD s.xl, xr := w.xr.getD s.xr, r := w.r.getD s.r, eq := w.eq.getD s.eq,
        sqzf := w.sqzf.getD s.sqzf, err := 0, errarg := 0, roundctr := BitVec.ofNat 16 n,
        busy := false, done := true, pending := none }

/-- 20_memory.md R51: what is held waits with no effect; what is not held completes with exactly its effect, and when
BUSY = 0 everything does. The turns are the model's choice (log 4), the polling loop's form too (log 12). -/
def Obligations.HeldTransactionsWaitAndOthersComplete : Prop :=
  ∀ (s : State) (op : HostOp) (rest : List HostOp) (ts : List Turn),
    HostMovesNext s ts → s.host = op :: rest → op.wellFormed s.cfg = true →
      (s.busy = true → waits op = true → step s = .next { s with turns := ts }) ∧
      (s.busy = false ∨ waits op = false → step s = portEffect op rest { s with turns := ts }) ∧
      (s.busy = true → waits op = false → op ≠ .poll → ∃ t, step s = .next t ∧ t.host = rest ∧ t.busy = true) ∧
      (s.busy = false → ∃ t, step s = .next t ∧ t.host = rest)

/-- 20_memory.md R51: a command presented while BUSY = 1 waits: nothing changes. That `exec` answers the unchanged state
is the model's form of the hold (log 14). -/
def Obligations.CommandPresentedWhileBusyWaits : Prop :=
  ∀ (i : Instr) (s : State), s.busy = true → exec i s = .next s

/-! ### The commands -/

/-- 40_command_execution.md R84. -/
def Obligations.NopOnlyRunsTheLifeCycle : Prop :=
  OnlyWord .nop 0x00 ∧
    ∀ s : State, s.busy = false → Completes .nop 0x00 s (succeeded s 0x00 0)

/-- 41_field_arith.md R86. -/
def Obligations.FaddWritesTheModularSum : Prop :=
  OnlyWord .fadd 0x01 ∧
    ∀ s : State, s.busy = false → Completes .fadd 0x01 s
      (if s.cfg.p ≤ s.a then failedWith s 0x01 1 0x09
       else if s.cfg.p ≤ s.b then failedWith s 0x01 1 0x0A
       else { succeeded s 0x01 0 with r := (s.a + s.b) % s.cfg.p })

/-- 41_field_arith.md R87. -/
def Obligations.FmulWritesTheModularProduct : Prop :=
  OnlyWord .fmul 0x02 ∧
    ∀ s : State, s.busy = false → Completes .fmul 0x02 s
      (if s.cfg.p ≤ s.a then failedWith s 0x02 1 0x09
       else if s.cfg.p ≤ s.b then failedWith s 0x02 1 0x0A
       else { succeeded s 0x02 0 with r := s.a * s.b % s.cfg.p })

/-- 41_field_arith.md R88: the exact power; the exponent is neither checked nor reduced, and `0 ^ 0 = 1`. -/
def Obligations.FpowWritesTheExactModularPower : Prop :=
  OnlyWord .fpow 0x03 ∧
    ∀ s : State, s.busy = false → Completes .fpow 0x03 s
      (if s.cfg.p ≤ s.a then failedWith s 0x03 1 0x09
       else { succeeded s 0x03 0 with r := s.a ^ s.b % s.cfg.p })

/-- 41_field_arith.md R89: no operand is checked. -/
def Obligations.FredReducesAnyValue : Prop :=
  OnlyWord .fred 0x04 ∧
    ∀ s : State, s.busy = false → Completes .fred 0x04 s { succeeded s 0x04 0 with r := s.a % s.cfg.p }

/-- 41_field_arith.md R90. -/
def Obligations.FeqWritesResultAndFlag : Prop :=
  OnlyWord .feq 0x05 ∧
    ∀ s : State, s.busy = false → Completes .feq 0x05 s
      (if s.cfg.p ≤ s.a then failedWith s 0x05 1 0x09
       else if s.cfg.p ≤ s.b then failedWith s 0x05 1 0x0A
       else { succeeded s 0x05 0 with r := if s.a = s.b then 1 else 0, eq := decide (s.a = s.b) }) ∧
      ∀ i ≠ Instr.feq, ∃ t, exec i s = .next t ∧ t.complete.eq = s.eq

/-- 42_round.md R93, R96. -/
def Obligations.RoundWritesTheRoundFunction : Prop :=
  ∀ imm < 65536, OnlyIndexedWord (.round imm) imm 0x10 ∧
    ∀ s : State, s.busy = false → RomFlagTrue s → Completes (.round imm) (imm * 65536 + 0x10) s
      (if s.cfgerr = true then failedWith s (imm * 65536 + 0x10) 2 0
       else if s.cfg.nr ≤ imm then failedWith s (imm * 65536 + 0x10) 4 0
       else if s.cfg.p ≤ s.a then failedWith s (imm * 65536 + 0x10) 1 0x09
       else if s.cfg.p ≤ s.key then failedWith s (imm * 65536 + 0x10) 1 0x08
       else { succeeded s (imm * 65536 + 0x10) 0 with
         r := (s.a + s.key + s.cfg.consts.getD imm 0) ^ 5 % s.cfg.p })

/-- 42_round.md R97: the entry read exists whenever the command succeeds. -/
def Obligations.LdcWritesTheRomEntry : Prop :=
  ∀ imm < 65536, OnlyIndexedWord (.ldc imm) imm 0x11 ∧
    ∀ s : State, s.busy = false → RomFlagTrue s →
      (s.cfgerr = true → Completes (.ldc imm) (imm * 65536 + 0x11) s (failedWith s (imm * 65536 + 0x11) 2 0)) ∧
      (s.cfgerr = false → s.cfg.nr ≤ imm →
        Completes (.ldc imm) (imm * 65536 + 0x11) s (failedWith s (imm * 65536 + 0x11) 4 0)) ∧
      (s.cfgerr = false → imm < s.cfg.nr → ∃ c, s.cfg.consts[imm]? = some c ∧
        Completes (.ldc imm) (imm * 65536 + 0x11) s { succeeded s (imm * 65536 + 0x11) 0 with r := c })

/-- 43_feistel.md R98, R99, R101: every round but the last exchanges the branches. -/
def Obligations.FstepAppliesOneFeistelRound : Prop :=
  ∀ imm < 65536, OnlyIndexedWord (.fstep imm) imm 0x20 ∧
    ∀ s : State, s.busy = false → RomFlagTrue s → Completes (.fstep imm) (imm * 65536 + 0x20) s
      (if s.cfgerr = true then failedWith s (imm * 65536 + 0x20) 2 0
       else if s.cfg.nr ≤ imm then failedWith s (imm * 65536 + 0x20) 4 0
       else if s.cfg.p ≤ s.xl then failedWith s (imm * 65536 + 0x20) 1 0x06
       else if s.cfg.p ≤ s.xr then failedWith s (imm * 65536 + 0x20) 1 0x07
       else if s.cfg.p ≤ s.key then failedWith s (imm * 65536 + 0x20) 1 0x08
       else if imm < s.cfg.nr - 1 then
         { succeeded s (imm * 65536 + 0x20) 1 with
           xl := (s.xr + (s.xl + s.key + s.cfg.consts.getD imm 0) ^ 5 % s.cfg.p) % s.cfg.p, xr := s.xl }
       else
         { succeeded s (imm * 65536 + 0x20) 1 with
           xr := (s.xr + (s.xl + s.key + s.cfg.consts.getD imm 0) ^ 5 % s.cfg.p) % s.cfg.p })

/-- 43_feistel.md R100, R102. -/
def Obligations.PermRunsEveryFeistelRound : Prop :=
  OnlyWord .perm 0x21 ∧
    ∀ s : State, s.busy = false → RomFlagTrue s → Completes .perm 0x21 s
      (if s.cfgerr = true then failedWith s 0x21 2 0
       else if s.cfg.p ≤ s.xl then failedWith s 0x21 1 0x06
       else if s.cfg.p ≤ s.xr then failedWith s 0x21 1 0x07
       else if s.cfg.p ≤ s.key then failedWith s 0x21 1 0x08
       else { succeeded s 0x21 s.cfg.nr with
         xl := (refPermute s.cfg s.xl s.xr s.key).1, xr := (refPermute s.cfg s.xl s.xr s.key).2 })

/-- 44_sponge_cipher.md R114. -/
def Obligations.EncEncryptsAsPerm : Prop :=
  OnlyWord .enc 0x22 ∧
    ∀ s : State, s.busy = false → RomFlagTrue s → Completes .enc 0x22 s
      (if s.cfgerr = true then failedWith s 0x22 2 0
       else if s.cfg.p ≤ s.xl then failedWith s 0x22 1 0x06
       else if s.cfg.p ≤ s.xr then failedWith s 0x22 1 0x07
       else if s.cfg.p ≤ s.key then failedWith s 0x22 1 0x08
       else { succeeded s 0x22 s.cfg.nr with
         xl := (refPermute s.cfg s.xl s.xr s.key).1, xr := (refPermute s.cfg s.xl s.xr s.key).2 })

/-- 43_feistel.md R105, 44_sponge_cipher.md R115. -/
def Obligations.DecRunsTheInversePermutation : Prop :=
  OnlyWord .dec 0x23 ∧
    ∀ s : State, s.busy = false → RomFlagTrue s → Completes .dec 0x23 s
      (if s.cfgerr = true then failedWith s 0x23 2 0
       else if s.cfg.p ≤ s.xl then failedWith s 0x23 1 0x06
       else if s.cfg.p ≤ s.xr then failedWith s 0x23 1 0x07
       else if s.cfg.p ≤ s.key then failedWith s 0x23 1 0x08
       else { succeeded s 0x23 s.cfg.nr with
         xl := (refUnpermute s.cfg s.xl s.xr s.key).1, xr := (refUnpermute s.cfg s.xl s.xr s.key).2 })

/-- 44_sponge_cipher.md R108: no operand is checked, and CFGERR does not matter. -/
def Obligations.SinitClearsTheStatePair : Prop :=
  OnlyWord .sinit 0x30 ∧
    ∀ s : State, s.busy = false →
      Completes .sinit 0x30 s { succeeded s 0x30 0 with xl := 0, xr := 0, sqzf := true }

/-- 44_sponge_cipher.md R109, in either phase (R113). -/
def Obligations.AbsorbAddsAndPermutes : Prop :=
  OnlyWord .absorb 0x31 ∧
    ∀ s : State, s.busy = false → RomFlagTrue s → Completes .absorb 0x31 s
      (if s.cfgerr = true then failedWith s 0x31 2 0
       else if s.cfg.p ≤ s.xl then failedWith s 0x31 1 0x06
       else if s.cfg.p ≤ s.xr then failedWith s 0x31 1 0x07
       else if s.cfg.p ≤ s.key then failedWith s 0x31 1 0x08
       else if s.cfg.p ≤ s.a then failedWith s 0x31 1 0x09
       else { succeeded s 0x31 s.cfg.nr with
         xl := (refPermute s.cfg ((s.xl + s.a) % s.cfg.p) s.xr s.key).1,
         xr := (refPermute s.cfg ((s.xl + s.a) % s.cfg.p) s.xr s.key).2, sqzf := true })

/-- 44_sponge_cipher.md R110: the operands are checked even when no permutation runs. -/
def Obligations.SqueezeReadsTheRateLane : Prop :=
  OnlyWord .squeeze 0x32 ∧
    ∀ s : State, s.busy = false → RomFlagTrue s → Completes .squeeze 0x32 s
      (if s.cfgerr = true then failedWith s 0x32 2 0
       else if s.cfg.p ≤ s.xl then failedWith s 0x32 1 0x06
       else if s.cfg.p ≤ s.xr then failedWith s 0x32 1 0x07
       else if s.cfg.p ≤ s.key then failedWith s 0x32 1 0x08
       else if s.sqzf = true then { succeeded s 0x32 0 with r := s.xl, sqzf := false }
       else { succeeded s 0x32 s.cfg.nr with
         xl := (refPermute s.cfg s.xl s.xr s.key).1, xr := (refPermute s.cfg s.xl s.xr s.key).2,
         r := (refPermute s.cfg s.xl s.xr s.key).1, sqzf := false })

/-! ### Errors -/

/-- 60_exceptions.md R125: one error is reported, the first of the order; without one the command succeeds. -/
def Obligations.ErrorsAreReportedInPriorityOrder : Prop :=
  (∀ (s : State) (v : Nat), s.busy = false → IllegalValue v →
    ∃ t, issueWord v s = .next t ∧ t.complete = failedWith s v 3 0) ∧
    ∀ (i : Instr) (s : State), i.wellFormed = true → s.busy = false →
      ∃ t, issueWord (encode i) s = .next t ∧ AcceptedFrom s t (encode i) ∧
        (∀ code arg, firstError s i = some (code, arg) → t.complete = failedWith s (encode i) code arg) ∧
        (firstError s i = none → t.complete.err = 0 ∧ t.complete.errarg = 0 ∧ ∃ w n, t.pending = some (.ok w n))

/-- 60_exceptions.md R124: a failed command, decoded or not, changes only CMD, BUSY, DONE, ERR, ERRARG and ROUNDCTR, and
issued again on the registers it left it fails again with the same code and ERRARG. -/
def Obligations.FailedCommandsArePrecise : Prop :=
  ∀ (v : Nat) (s : State), s.busy = false → ∃ t, issueWord v s = .next t ∧
    ∀ code arg, t.pending = some (.fail code arg) →
      t.complete = failedWith s v (errBits code) arg ∧
        ∃ t', issueWord v t.complete = .next t' ∧ t'.pending = some (.fail code arg)

/-- 60_exceptions.md R121: ConstOps fail while CFGERR = 1; the other commands do not see CFGERR; reset reports it. -/
def Obligations.ConfigMismatchStopsOnlyRomReaders : Prop :=
  (∀ c : Config, ((State.resetOf c).cfgerr = true ↔ c.consts.length ≠ c.nr) ∧
    ((State.resetOf c).cfgerr = true → (State.resetOf c).err = 2)) ∧
  ∀ (i : Instr) (s : State), s.busy = false →
    (readsRom i = true → s.cfgerr = true → Completes i (encode i) s (failedWith s (encode i) 2 0)) ∧
    (readsRom i = false → ∃ t t', exec i { s with cfgerr := true } = .next t ∧
      exec i { s with cfgerr := false } = .next t' ∧ t.complete = { t'.complete with cfgerr := true })

/-- 41_field_arith.md R85, 10_state.md R28: every value a command writes into a field register is canonical. -/
def Obligations.CommandsWriteOnlyCanonicalValues : Prop :=
  ∀ (i : Instr) (s : State), s.busy = false → ∃ t, exec i s = .next t ∧
    (t.complete.r = s.r ∨ t.complete.r < s.cfg.p) ∧ (t.complete.xl = s.xl ∨ t.complete.xl < s.cfg.p) ∧
    (t.complete.xr = s.xr ∨ t.complete.xr < s.cfg.p) ∧ ∀ w n, t.pending = some (.ok w n) →
      (∀ v ∈ w.r, v < s.cfg.p) ∧ (∀ v ∈ w.xl, v < s.cfg.p) ∧ ∀ v ∈ w.xr, v < s.cfg.p

/-! ### The host port -/

/-- 20_memory.md R46, R50: the whole address map: reads, write effects, and which accesses are held. -/
def Obligations.AddressMapReadsWritesAndHolds : Prop :=
  ∀ (s : State) (addr : BitVec 5),
    hostRead s addr = mapRead s addr.toNat ∧
    (∀ v < 2 ^ s.cfg.dw, hostWrite addr v s =
      if addr.toNat = 0 then issueWord v s else .next (mapWrite s addr.toNat v)) ∧
    held s (.read addr) = (s.busy && waits (.read addr)) ∧
    ∀ v, held s (.write addr v) = (s.busy && waits (.write addr v))

/-- 20_memory.md R47: a completed HostRead delivers the map's value and changes no state of the block. The
turns and the list of delivered values are the model's own (log 4, log 6). -/
def Obligations.HostReadDeliversAndChangesNothing : Prop :=
  ∀ (s : State) (addr : BitVec 5) (rest : List HostOp) (ts : List Turn),
    s.turns = .host :: ts → s.host = .read addr :: rest → (s.busy = false ∨ waits (.read addr) = false) →
      step s = .next { s with turns := ts, host := rest, reads := s.reads ++ [mapRead s addr.toNat] }

/-- 20_memory.md R49: the reserved addresses read 0, ignore writes, and are never held. -/
def Obligations.ReservedAddressesReadZeroIgnoreWrites : Prop :=
  ∀ (s : State) (addr : BitVec 5), 0x0C ≤ addr.toNat →
    hostRead s addr = 0 ∧ (∀ v < 2 ^ s.cfg.dw, hostWrite addr v s = .next s) ∧
      held s (.read addr) = false ∧ ∀ v, held s (.write addr v) = false

/-- 20_memory.md R55: a HostWrite to any address but CMD may be repeated with no further effect. -/
def Obligations.RepeatedWritesChangeNothingMore : Prop :=
  ∀ (s t : State) (addr : BitVec 5) (v : Nat), addr ≠ 0 →
    hostWrite addr v s = .next t → hostWrite addr v t = .next t

/-- 10_state.md R32: where each field of STATUS stands, and that every other bit reads 0. -/
def Obligations.StatusFieldsStandWhereTheSpecPutsThem : Prop :=
  ∀ s : State, slice s.statusWord 0 0 = s.busy.toNat ∧ slice s.statusWord 1 1 = s.done.toNat ∧
    slice s.statusWord 2 2 = s.eq.toNat ∧ slice s.statusWord 3 3 = s.sqzf.toNat ∧
    slice s.statusWord 4 4 = s.cfgerr.toNat ∧ slice s.statusWord 7 5 = 0 ∧
    slice s.statusWord 11 8 = s.err.toNat ∧ slice s.statusWord 15 12 = 0 ∧
    slice s.statusWord 20 16 = s.errarg.toNat ∧ s.statusWord < 2 ^ 21

/-- 10_state.md R30: where each field of ID stands. The width field is stated for a `DW` that fits its 16
bits; for a wider one the model's value is free (log 10). -/
def Obligations.IdReportsTheConfiguration : Prop :=
  ∀ c : Config, slice (idWord c) 15 0 = c.nr ∧ slice (idWord c) 31 16 = c.consts.length ∧
    (c.dw < 65536 → slice (idWord c) 47 32 = c.dw) ∧ slice (idWord c) 55 48 = 5 ∧ slice (idWord c) 63 56 = 1 ∧
    idWord c < 2 ^ 64

/-- 20_memory.md R53: byte `j` is `v[8j+7:8j]`, and the bytes give the value back. -/
def Obligations.BytesAreLittleEndian : Prop :=
  ∀ dw v : Nat, v < 2 ^ dw → (toBytes dw v).length = (dw + 7) / 8 ∧
    (∀ j < (dw + 7) / 8, (toBytes dw v)[j]? = some (BitVec.ofNat 8 (v / 2 ^ (8 * j)))) ∧ ofBytes (toBytes dw v) = v

/-! ### Whole-machine rules -/

/-- 10_state.md R24: the value read back, at every address and in every step, does not depend on KEY. -/
def Obligations.KeyNeverReachesThePort : Prop :=
  ∀ (s : State) (k : Nat), (∀ addr, hostRead { s with key := k } addr = hostRead s addr) ∧ hostRead s 0x08 = 0 ∧
    ∀ t t', step s = .next t → step { s with key := k } = .next t' → t'.reads = t.reads

/-- 10_state.md R24, R25, R26: outside reset, KEY, A and B change only in a step that completes the host's write to them,
and then hold the written value. -/
def Obligations.OnlyTheHostWritesKeyAndOperands : Prop :=
  ∀ s t : State, step s = .next t → (∀ d, s.turns.head? ≠ some (.reset d)) →
    (t.key ≠ s.key → ∃ v rest, s.host = .write 0x08 v :: rest ∧ s.busy = false ∧ t.host = rest ∧ t.key = v) ∧
    (t.a ≠ s.a → ∃ v rest, s.host = .write 0x09 v :: rest ∧ s.busy = false ∧ t.host = rest ∧ t.a = v) ∧
    (t.b ≠ s.b → ∃ v rest, s.host = .write 0x0A v :: rest ∧ s.busy = false ∧ t.host = rest ∧ t.b = v)

/-- 10_state.md R35: the one writer of EQ. -/
def Obligations.OnlySuccessfulFeqWritesEq : Prop :=
  (∀ c, (State.resetOf c).eq = false) ∧
    ∀ (i : Instr) (s : State), s.busy = false → ∃ t, exec i s = .next t ∧ t.eq = s.eq ∧
      t.complete.eq = (if i = .feq ∧ t.complete.err = 0 then decide (s.a = s.b) else s.eq) ∧
      ∀ v, IllegalValue v → ∃ u, issueWord v s = .next u ∧ u.eq = s.eq ∧ u.complete.eq = s.eq

/-- 10_state.md R36: who sets and who clears SQZF, and what SQZF = 1 means for SQUEEZE. -/
def Obligations.SqueezeFirstFlagRule : Prop :=
  (∀ c, (State.resetOf c).sqzf = true) ∧
    ∀ (i : Instr) (s : State), s.busy = false → ∃ t, exec i s = .next t ∧ t.sqzf = s.sqzf ∧
      (t.complete.err ≠ 0 → t.complete.sqzf = s.sqzf) ∧
      (t.complete.err = 0 → t.complete.sqzf =
        if i = .sinit ∨ i = .absorb then true else if i = .squeeze then false else s.sqzf) ∧
      (t.complete.err = 0 → i = .squeeze → s.sqzf = true →
        t.complete.r = s.xl ∧ t.complete.xl = s.xl ∧ t.complete.xr = s.xr) ∧
      ∀ v, IllegalValue v → ∃ u, issueWord v s = .next u ∧ u.sqzf = s.sqzf ∧ u.complete.sqzf = s.sqzf

/-- 10_state.md R33: acceptance sets BUSY, completion and reset clear it, and nothing else changes it. -/
def Obligations.BusyChangesOnlyAtAcceptanceCompletionAndReset : Prop :=
  (∀ (v : Nat) (s : State), s.busy = false → ∃ t, issueWord v s = .next t ∧ t.busy = true ∧ t.complete.busy = false) ∧
  (∀ (s : State) (d : Bool), (s.resetCycle d).busy = false) ∧
  ∀ s t : State, step s = .next t →
    (s.busy = false → t.busy = true →
      ∃ v rest, s.host = .write 0x00 v :: rest ∧ t.host = rest ∧ t.cmd = v ∧ ∃ o, t.pending = some o) ∧
    (s.busy = true → t.busy = false →
      (∃ d, s.turns.head? = some (.reset d)) ∨
        ∃ o, s.pending = some o ∧ t.pending = none ∧ t.done = true ∧ t.err = outcomeErr o)

/-- 10_state.md R34: DONE is set by completion, and cleared by acceptance, by a STATUS write with bit 1, and by reset. -/
def Obligations.DoneChangesOnlyAsTheSpecSays : Prop :=
  (∀ (v : Nat) (s : State), s.busy = false →
    ∃ t, issueWord v s = .next t ∧ t.done = false ∧ t.complete.done = true) ∧
  (∀ (s : State), ∀ v < 2 ^ s.cfg.dw, v / 2 % 2 = 1 → ∃ t, hostWrite 0x01 v s = .next t ∧ t.done = false) ∧
  (∀ (s : State) (d : Bool), (s.resetCycle d).done = false) ∧
  ∀ s t : State, step s = .next t →
    (s.done = false → t.done = true → ∃ o, s.pending = some o ∧ t.pending = none ∧ t.busy = false) ∧
    (s.done = true → t.done = false →
      (∃ d, s.turns.head? = some (.reset d)) ∨
      (∃ v rest, s.host = .write 0x00 v :: rest ∧ s.busy = false ∧ t.busy = true) ∨
      ∃ v rest, s.host = .write 0x01 v :: rest ∧ v / 2 % 2 = 1)

/-- 60_exceptions.md R126, R127: `irq` is the level IE and DONE; a completion raises it when enabled, and a W1C of DONE, the
next acceptance, a cleared IE and reset lower it; a completion that was masked is not lost. -/
def Obligations.InterruptIsALevelOfEnableAndDone : Prop :=
  ∀ s : State, (s.irq = true ↔ s.ie = true ∧ s.done = true) ∧
    (∀ o, s.pending = some o → s.complete.irq = s.ie ∧ s.complete.done = true) ∧
    (∀ v < 2 ^ s.cfg.dw, v / 2 % 2 = 1 → ∃ t, hostWrite 0x01 v s = .next t ∧ t.irq = false) ∧
    (∀ v < 2 ^ s.cfg.dw, ∃ t, hostWrite 0x02 v s = .next t ∧ t.done = s.done ∧
      t.irq = (decide (v % 2 = 1) && s.done)) ∧
    (∀ v < 2 ^ s.cfg.dw, s.busy = false → ∃ t, hostWrite 0x00 v s = .next t ∧ t.irq = false) ∧
    ∀ d, (s.resetCycle d).irq = false ∧ (s.resetCycle d).done = false ∧ (s.resetCycle d).ie = false

/-- 70_reset_and_hazards.md R141, 10_state.md R37: no step changes the configuration, and CFGERR goes on reporting it. -/
def Obligations.ConfigurationAndMismatchArePermanent : Prop :=
  ∀ s t : State, step s = .next t → t.cfg = s.cfg ∧ (s.cfgerr = s.cfg.mismatch → t.cfgerr = s.cfg.mismatch)

/-- 40_command_execution.md R80, R83: while a command stays pending, nothing it reads or writes changes, nor its outcome. -/
def Obligations.BusyPeriodKeepsOperandsAndOutcome : Prop :=
  ∀ s t : State, step s = .next t → s.busy = true → t.busy = true → (∀ d, s.turns.head? ≠ some (.reset d)) →
    t.xl = s.xl ∧ t.xr = s.xr ∧ t.key = s.key ∧ t.a = s.a ∧ t.b = s.b ∧ t.r = s.r ∧ t.cmd = s.cmd ∧ t.eq = s.eq ∧
      t.sqzf = s.sqzf ∧ t.cfgerr = s.cfgerr ∧ t.err = s.err ∧ t.errarg = s.errarg ∧ t.pending = s.pending

/-- 10_state.md R41: during a busy period ROUNDCTR does not decrease and does not pass the command's final
count. That its progress comes in turns is the model's choice (log 5). -/
def Obligations.RoundCounterRisesToItsFinalCount : Prop :=
  ∀ s t : State, s.Inv → step s = .next t → s.busy = true → t.busy = true →
    (∀ d, s.turns.head? ≠ some (.reset d)) →
      ∃ o, t.pending = some o ∧ s.roundctr.toNat ≤ t.roundctr.toNat ∧ t.roundctr.toNat ≤ finalCount o

/-- 10_state.md R41, 93_implementation_defined.md S1: every value from the present one to the final count can be the next
one read: some schedule reaches it. The schedule is the model's form of the draw (log 5). -/
def Obligations.EveryProgressValueCanBeSeen : Prop :=
  ∀ (s : State) (o : CmdOutcome) (n : Nat), s.pending = some o → s.roundctr.toNat ≤ n → n ≤ finalCount o →
    finalCount o < 65536 → ∃ k, ∀ ts,
      Host.Core.run core k { s with turns := List.replicate k .progress ++ ts } =
        .next { s with turns := ts, roundctr := BitVec.ofNat 16 n }

/-- 70_reset_and_hazards.md R137, R138: a reset cycle leaves the reset state and discards the pending command; an
outstanding CMD write completes after reset, against the reset state, unless the host drops it. The turn and its drop option are the model's choice
(log 4, log 11). -/
def Obligations.ResetDiscardsThePendingCommand : Prop :=
  ∀ (s : State) (d : Bool) (ts : List Turn), s.turns = .reset d :: ts →
    step s = .next { State.resetOf s.cfg with
      turns := ts, host := if d = true then s.host.tail else s.host, reads := s.reads } ∧
    ∀ v i rest ts', d = false → ts = .host :: ts' → s.host = .write 0x00 v :: rest → v < 2 ^ s.cfg.dw →
      decode v = .ok i → ∃ u, step s = .next u ∧
        step u = exec i { State.resetOf s.cfg with turns := ts', host := rest, reads := s.reads }

/-- 10_state.md R44. -/
def Obligations.ResetLeavesTheStatedValues : Prop :=
  State.reset = State.resetOf Config.impl ∧ ∀ c : Config,
    let s := State.resetOf c
    s.xl = 0 ∧ s.xr = 0 ∧ s.key = 0 ∧ s.a = 0 ∧ s.b = 0 ∧ s.r = 0 ∧ s.cmd = 0 ∧ s.busy = false ∧ s.done = false ∧
      s.eq = false ∧ s.sqzf = true ∧ (s.cfgerr = true ↔ c.consts.length ≠ c.nr) ∧
      s.err = (if c.consts.length ≠ c.nr then 2 else 0) ∧ s.errarg = 0 ∧ s.ie = false ∧ s.roundctr = 0 ∧
      s.pending = none ∧ s.irq = false ∧
      ∃ t, exec .sinit s = .next t ∧ t.complete.xl = s.xl ∧ t.complete.xr = s.xr ∧ t.complete.sqzf = s.sqzf

/-- The reset state of every configuration meets the invariant. -/
def Obligations.ResetMeetsTheInvariant : Prop := ∀ c : Config, (State.resetOf c).Inv

/-- From every state that meets the invariant, a step leads to one that meets it. -/
def Obligations.EveryStepKeepsTheInvariant : Prop :=
  ∀ s t : State, s.Inv → step s = .next t → t.Inv

/-- 60_exceptions.md R118, R130: nothing the host can do stops the block. -/
def Obligations.NoStepFromALawfulStateStops : Prop :=
  ∀ s : State, s.Inv → ∃ t, step s = .next t

/-- 70_reset_and_hazards.md R146, 20_memory.md R51: whatever the schedule and the host do, a pending command is over
after at most one step more than the schedule has turns. A finite schedule stands for R146's fairness: the model's choice
(log 4). -/
def Obligations.EveryPendingCommandEndsInBoundedSteps : Prop :=
  ∀ s : State, s.Inv → s.busy = true →
    ∃ k ≤ s.turns.length + 1, ∃ t, Host.Core.run core k s = .next t ∧ t.busy = false

/-! ### The mathematics of the block -/

/-- 43_feistel.md R106. -/
def Obligations.PermutationAndInverseUndoEachOther : Prop :=
  ∀ (c : Config) (l r k : Nat), l < c.p → r < c.p → k < c.p →
    unpermute c (permute c l r k).1 (permute c l r k).2 k = (l, r) ∧
      permute c (unpermute c l r k).1 (unpermute c l r k).2 k = (l, r) ∧
      Set.BijOn (fun lr : Nat × Nat => permute c lr.1 lr.2 k) (Set.Iio c.p ×ˢ Set.Iio c.p) (Set.Iio c.p ×ˢ Set.Iio c.p)

/-- 42_round.md R94: the S-box, and the round function for a fixed key and round, are bijections of `[0, P)`. -/
def Obligations.SboxAndRoundFunctionAreBijections : Prop :=
  ∀ c : Config, (∀ x, sbox c.p x = x ^ 5 % c.p) ∧ Set.BijOn (sbox c.p) (Set.Iio c.p) (Set.Iio c.p) ∧
    ∀ k, ∀ i < c.consts.length, (∀ x, rf c.p x k (c.roundConst i) = refRound c k i x) ∧
      Set.BijOn (fun x => rf c.p x k (c.roundConst i)) (Set.Iio c.p) (Set.Iio c.p)

/-- 44_sponge_cipher.md R116: ENC and then DEC leave the pair they started from. -/
def Obligations.EncThenDecRestoresThePair : Prop :=
  ∀ s : State, s.busy = false → s.cfgerr = false → s.xl < s.cfg.p → s.xr < s.cfg.p → s.key < s.cfg.p →
    ∃ t u, exec .enc s = .next t ∧ exec .dec t.complete = .next u ∧
      u.complete.xl = s.xl ∧ u.complete.xr = s.xr ∧ u.complete.err = 0

/-- 43_feistel.md R101, R102: FSTEP 0 to FSTEP NR-1 on one state leave XL and XR equal to what PERM gives. -/
def Obligations.SingleStepsInOrderEqualPerm : Prop :=
  ∀ s : State, s.busy = false → RomFlagTrue s → s.cfgerr = false →
    s.xl < s.cfg.p → s.xr < s.cfg.p → s.key < s.cfg.p →
      ∃ u t, singleSteps s.cfg.nr s = some u ∧ exec .perm s = .next t ∧
        u.xl = t.complete.xl ∧ u.xr = t.complete.xr ∧ u.key = s.key ∧ u.err = 0

/-- 44_sponge_cipher.md R108, R109, R110, R112: from the SINIT state, absorbing one element and squeezing gives the first
component of the permutation of that element. -/
def Obligations.OneAbsorbOneSqueezeIsOnePermutation : Prop :=
  ∀ s : State, s.busy = false → s.cfgerr = false → s.xl = 0 → s.xr = 0 → s.key < s.cfg.p → s.a < s.cfg.p →
    ∃ t u, exec .absorb s = .next t ∧ exec .squeeze t.complete = .next u ∧
      u.complete.r = (permute s.cfg s.a 0 s.key).1 ∧ u.complete.xl = (permute s.cfg s.a 0 s.key).1 ∧
      u.complete.xr = (permute s.cfg s.a 0 s.key).2 ∧ u.complete.sqzf = false

/-! ### The port's signals -/

/-- 20_memory.md R45: `ack` is 1 exactly in the step that completes the outstanding transaction, and `rdata` is then what
that step delivers. Which step that is comes from the schedule (log 4, log 20), and a `wait` stays on the host's list
while its reads show BUSY = 1 (log 12): the model's choices. -/
def Obligations.AckAndRdataBelongToTheCompletingStep : Prop :=
  ∀ s t : State, step s = .next t →
    (portAck s = true ↔ ∃ op rest ts, s.host = op :: rest ∧ HostMovesNext s ts ∧ (s.busy = true → waits op = false)) ∧
    (portAck s = true → ∃ op rest, s.host = op :: rest ∧ t.host = if op = .poll ∧ s.busy = true then op :: rest else rest) ∧
    (portAck s = false → rst s = false → t.host = s.host) ∧
    (rst s = true ↔ ∃ d, s.turns.head? = some (.reset d)) ∧ (rst s = true → portAck s = false) ∧
    (∀ v, rdata s = some v ↔ portAck s = true ∧
      ((∃ addr rest, s.host = .read addr :: rest ∧ v = mapRead s addr.toNat) ∨
        ∃ rest, s.host = .poll :: rest ∧ v = s.statusWord)) ∧
    t.reads = s.reads ++ (rdata s).toList
end

