-- ==== Sys2Proof/Laws/Arith.lean ====
section
/-! SUPPORT. The field unit's laws (41_field_arith.md R85): every result is canonical, the power is the exact one, and
the internal subtraction undoes the addition. -/

namespace Sys2Proof.Machine

theorem Config.p_pos (c : Config) : 0 < c.p := c.wf.prime.pos

theorem Config.p_lt_word (c : Config) : c.p < 2 ^ c.dw := c.wf.fits

theorem addp_lt {p : Nat} (hp : 0 < p) (a b : Nat) : addp p a b < p := Nat.mod_lt _ hp

theorem mulp_lt {p : Nat} (hp : 0 < p) (a b : Nat) : mulp p a b < p := Nat.mod_lt _ hp

theorem subp_eq_emod {p : Nat} (hp : 0 < p) (a b : Nat) : ((subp p a b : Nat) : Int) = ((a : Int) - b) % p :=
  Int.toNat_of_nonneg (Int.emod_nonneg _ (by omega))

theorem subp_lt {p : Nat} (hp : 0 < p) (a b : Nat) : subp p a b < p := by
  have h := Int.emod_lt_of_pos ((a : Int) - b) (by omega : (0 : Int) < p)
  rw [← subp_eq_emod hp] at h
  exact_mod_cast h

theorem addp_eq_emod (p a b : Nat) : ((addp p a b : Nat) : Int) = ((a : Int) + b) % p := by
  simp [addp]

/-- Subtracting what was added gives a canonical value back. -/
theorem subp_addp {p a t : Nat} (ha : a < p) : subp p (addp p a t) t = a := by
  have hp : 0 < p := by omega
  have h : ((subp p (addp p a t) t : Nat) : Int) = a := by
    rw [subp_eq_emod hp, addp_eq_emod, Int.emod_sub_emod, add_sub_cancel_right]
    exact Int.emod_eq_of_lt (by omega) (by omega)
  exact_mod_cast h

/-- Adding what was subtracted gives a canonical value back. -/
theorem addp_subp {p a t : Nat} (ha : a < p) : addp p (subp p a t) t = a := by
  have hp : 0 < p := by omega
  have h : ((addp p (subp p a t) t : Nat) : Int) = a := by
    rw [addp_eq_emod, subp_eq_emod hp, Int.emod_add_emod, sub_add_cancel]
    exact Int.emod_eq_of_lt (by omega) (by omega)
  exact_mod_cast h

theorem powBits_eq (p a : Nat) : ∀ fuel e, e < 2 ^ fuel → powBits p a fuel e = a ^ e % p
  | 0, e, h => by
    obtain rfl : e = 0 := by simpa using h
    simp [powBits]
  | fuel + 1, e, h => by
    have ih := powBits_eq p a fuel (e / 2) (by rw [Nat.pow_succ] at h; omega)
    have he := Nat.div_add_mod e 2
    simp only [powBits, ih, mulp]
    split
    · rename_i h1
      conv_rhs => rw [← he, h1, pow_succ, two_mul, pow_add]
      simp [Nat.mul_mod]
    · rename_i h1
      have h0 : e % 2 = 0 := by omega
      conv_rhs => rw [← he, h0, Nat.add_zero, two_mul, pow_add]
      simp [Nat.mul_mod]

/-- `powp` is the exact power reduced modulo `P` (00_scope.md R16, 41_field_arith.md R88). -/
theorem powp_eq (p a e : Nat) : powp p a e = a ^ e % p :=
  powBits_eq p a _ e Nat.lt_log2_self

theorem powp_lt {p : Nat} (hp : 0 < p) (a e : Nat) : powp p a e < p := by
  rw [powp_eq]; exact Nat.mod_lt _ hp

theorem sbox_eq (p x : Nat) : sbox p x = x ^ 5 % p := powp_eq p x 5

/-- The round function is `(x + k + c)^5 mod P` (42_round.md R93). -/
theorem rf_eq (p x k c : Nat) : rf p x k c = (x + k + c) ^ 5 % p := by
  rw [rf, sbox_eq, addp, addp, Nat.mod_add_mod, ← Nat.pow_mod]

theorem rf_lt {p : Nat} (hp : 0 < p) (x k c : Nat) : rf p x k c < p := powp_lt hp _ 5

theorem roundConst_lt (c : Config) (i : Nat) : c.roundConst i < c.p := by
  unfold Config.roundConst
  rw [List.getD_eq_getElem?_getD]
  cases h : c.consts[i]? with
  | none => exact Config.p_pos c
  | some v => exact c.wf.canonical v (List.mem_of_getElem? h)

/-- A pair of field elements. -/
def CanonPair (p : Nat) (lr : Nat × Nat) : Prop := lr.1 < p ∧ lr.2 < p

theorem feistelRound_canon {c : Config} {k i : Nat} {lr : Nat × Nat} (h : CanonPair c.p lr) :
    CanonPair c.p (feistelRound c k i lr) := by
  unfold feistelRound
  dsimp only
  split
  · exact ⟨addp_lt (Config.p_pos c) _ _, h.1⟩
  · exact ⟨h.1, addp_lt (Config.p_pos c) _ _⟩

theorem feistelUnround_canon {c : Config} {k i : Nat} {lr : Nat × Nat} (h : CanonPair c.p lr) :
    CanonPair c.p (feistelUnround c k i lr) := by
  unfold feistelUnround
  split
  · exact ⟨h.2, subp_lt (Config.p_pos c) _ _⟩
  · exact ⟨h.1, subp_lt (Config.p_pos c) _ _⟩

theorem forwardRounds_canon {c : Config} {k : Nat} {lr : Nat × Nat} (h : CanonPair c.p lr) :
    ∀ n, CanonPair c.p (forwardRounds c k n lr)
  | 0 => h
  | n + 1 => feistelRound_canon (forwardRounds_canon h n)

theorem backwardRounds_canon {c : Config} {k : Nat} : ∀ n {lr : Nat × Nat}, CanonPair c.p lr →
    CanonPair c.p (backwardRounds c k n lr)
  | 0, _, h => h
  | n + 1, _, h => backwardRounds_canon n (feistelUnround_canon h)

theorem permute_canon {c : Config} {l r k : Nat} (hl : l < c.p) (hr : r < c.p) : CanonPair c.p (permute c l r k) :=
  forwardRounds_canon ⟨hl, hr⟩ c.nr

theorem unpermute_canon {c : Config} {l r k : Nat} (hl : l < c.p) (hr : r < c.p) :
    CanonPair c.p (unpermute c l r k) :=
  backwardRounds_canon c.nr ⟨hl, hr⟩

end Sys2Proof.Machine
end

