-- ==== Sys2Proof/Laws/State.lean ====
section
/-! SUPPORT. What each state update does to each field: one lemma per field per update, so that no proof unfolds a
record update. -/

namespace Sys2Proof.Machine

/-! ### accepted -/

@[simp] theorem State.accepted_cfg (s : State) (v : Nat) (o : CmdOutcome) : (s.accepted v o).cfg = s.cfg := rfl
@[simp] theorem State.accepted_xl (s : State) (v : Nat) (o : CmdOutcome) : (s.accepted v o).xl = s.xl := rfl
@[simp] theorem State.accepted_xr (s : State) (v : Nat) (o : CmdOutcome) : (s.accepted v o).xr = s.xr := rfl
@[simp] theorem State.accepted_key (s : State) (v : Nat) (o : CmdOutcome) : (s.accepted v o).key = s.key := rfl
@[simp] theorem State.accepted_a (s : State) (v : Nat) (o : CmdOutcome) : (s.accepted v o).a = s.a := rfl
@[simp] theorem State.accepted_b (s : State) (v : Nat) (o : CmdOutcome) : (s.accepted v o).b = s.b := rfl
@[simp] theorem State.accepted_r (s : State) (v : Nat) (o : CmdOutcome) : (s.accepted v o).r = s.r := rfl
@[simp] theorem State.accepted_cmd (s : State) (v : Nat) (o : CmdOutcome) : (s.accepted v o).cmd = v := rfl
@[simp] theorem State.accepted_busy (s : State) (v : Nat) (o : CmdOutcome) : (s.accepted v o).busy = true := rfl
@[simp] theorem State.accepted_done (s : State) (v : Nat) (o : CmdOutcome) : (s.accepted v o).done = false := rfl
@[simp] theorem State.accepted_eq (s : State) (v : Nat) (o : CmdOutcome) : (s.accepted v o).eq = s.eq := rfl
@[simp] theorem State.accepted_sqzf (s : State) (v : Nat) (o : CmdOutcome) : (s.accepted v o).sqzf = s.sqzf := rfl
@[simp] theorem State.accepted_cfgerr (s : State) (v : Nat) (o : CmdOutcome) : (s.accepted v o).cfgerr = s.cfgerr := rfl
@[simp] theorem State.accepted_err (s : State) (v : Nat) (o : CmdOutcome) : (s.accepted v o).err = 0 := rfl
@[simp] theorem State.accepted_errarg (s : State) (v : Nat) (o : CmdOutcome) : (s.accepted v o).errarg = 0 := rfl
@[simp] theorem State.accepted_ie (s : State) (v : Nat) (o : CmdOutcome) : (s.accepted v o).ie = s.ie := rfl
@[simp] theorem State.accepted_roundctr (s : State) (v : Nat) (o : CmdOutcome) : (s.accepted v o).roundctr = 0 := rfl
@[simp] theorem State.accepted_pending (s : State) (v : Nat) (o : CmdOutcome) : (s.accepted v o).pending = some o := rfl
@[simp] theorem State.accepted_host (s : State) (v : Nat) (o : CmdOutcome) : (s.accepted v o).host = s.host := rfl
@[simp] theorem State.accepted_turns (s : State) (v : Nat) (o : CmdOutcome) : (s.accepted v o).turns = s.turns := rfl
@[simp] theorem State.accepted_reads (s : State) (v : Nat) (o : CmdOutcome) : (s.accepted v o).reads = s.reads := rfl

/-! ### applyWrites -/

@[simp] theorem State.applyWrites_cfg (s : State) (w : Writes) : (s.applyWrites w).cfg = s.cfg := rfl
@[simp] theorem State.applyWrites_xl (s : State) (w : Writes) : (s.applyWrites w).xl = w.xl.getD s.xl := rfl
@[simp] theorem State.applyWrites_xr (s : State) (w : Writes) : (s.applyWrites w).xr = w.xr.getD s.xr := rfl
@[simp] theorem State.applyWrites_key (s : State) (w : Writes) : (s.applyWrites w).key = s.key := rfl
@[simp] theorem State.applyWrites_a (s : State) (w : Writes) : (s.applyWrites w).a = s.a := rfl
@[simp] theorem State.applyWrites_b (s : State) (w : Writes) : (s.applyWrites w).b = s.b := rfl
@[simp] theorem State.applyWrites_r (s : State) (w : Writes) : (s.applyWrites w).r = w.r.getD s.r := rfl
@[simp] theorem State.applyWrites_cmd (s : State) (w : Writes) : (s.applyWrites w).cmd = s.cmd := rfl
@[simp] theorem State.applyWrites_busy (s : State) (w : Writes) : (s.applyWrites w).busy = s.busy := rfl
@[simp] theorem State.applyWrites_done (s : State) (w : Writes) : (s.applyWrites w).done = s.done := rfl
@[simp] theorem State.applyWrites_eq (s : State) (w : Writes) : (s.applyWrites w).eq = w.eq.getD s.eq := rfl
@[simp] theorem State.applyWrites_sqzf (s : State) (w : Writes) : (s.applyWrites w).sqzf = w.sqzf.getD s.sqzf := rfl
@[simp] theorem State.applyWrites_cfgerr (s : State) (w : Writes) : (s.applyWrites w).cfgerr = s.cfgerr := rfl
@[simp] theorem State.applyWrites_err (s : State) (w : Writes) : (s.applyWrites w).err = s.err := rfl
@[simp] theorem State.applyWrites_errarg (s : State) (w : Writes) : (s.applyWrites w).errarg = s.errarg := rfl
@[simp] theorem State.applyWrites_ie (s : State) (w : Writes) : (s.applyWrites w).ie = s.ie := rfl
@[simp] theorem State.applyWrites_roundctr (s : State) (w : Writes) : (s.applyWrites w).roundctr = s.roundctr := rfl
@[simp] theorem State.applyWrites_pending (s : State) (w : Writes) : (s.applyWrites w).pending = s.pending := rfl
@[simp] theorem State.applyWrites_host (s : State) (w : Writes) : (s.applyWrites w).host = s.host := rfl
@[simp] theorem State.applyWrites_turns (s : State) (w : Writes) : (s.applyWrites w).turns = s.turns := rfl
@[simp] theorem State.applyWrites_reads (s : State) (w : Writes) : (s.applyWrites w).reads = s.reads := rfl

/-! ### finish -/

@[simp] theorem State.finish_cfg (s : State) (o : CmdOutcome) : (s.finish o).cfg = s.cfg := rfl
@[simp] theorem State.finish_xl (s : State) (o : CmdOutcome) : (s.finish o).xl = (outcomeWrites o).xl.getD s.xl := rfl
@[simp] theorem State.finish_xr (s : State) (o : CmdOutcome) : (s.finish o).xr = (outcomeWrites o).xr.getD s.xr := rfl
@[simp] theorem State.finish_key (s : State) (o : CmdOutcome) : (s.finish o).key = s.key := rfl
@[simp] theorem State.finish_a (s : State) (o : CmdOutcome) : (s.finish o).a = s.a := rfl
@[simp] theorem State.finish_b (s : State) (o : CmdOutcome) : (s.finish o).b = s.b := rfl
@[simp] theorem State.finish_r (s : State) (o : CmdOutcome) : (s.finish o).r = (outcomeWrites o).r.getD s.r := rfl
@[simp] theorem State.finish_cmd (s : State) (o : CmdOutcome) : (s.finish o).cmd = s.cmd := rfl
@[simp] theorem State.finish_busy (s : State) (o : CmdOutcome) : (s.finish o).busy = false := rfl
@[simp] theorem State.finish_done (s : State) (o : CmdOutcome) : (s.finish o).done = true := rfl
@[simp] theorem State.finish_eq (s : State) (o : CmdOutcome) : (s.finish o).eq = (outcomeWrites o).eq.getD s.eq := rfl
@[simp] theorem State.finish_sqzf (s : State) (o : CmdOutcome) : (s.finish o).sqzf = (outcomeWrites o).sqzf.getD s.sqzf := rfl
@[simp] theorem State.finish_cfgerr (s : State) (o : CmdOutcome) : (s.finish o).cfgerr = s.cfgerr := rfl
@[simp] theorem State.finish_err (s : State) (o : CmdOutcome) : (s.finish o).err = outcomeErr o := rfl
@[simp] theorem State.finish_errarg (s : State) (o : CmdOutcome) : (s.finish o).errarg = outcomeArg o := rfl
@[simp] theorem State.finish_ie (s : State) (o : CmdOutcome) : (s.finish o).ie = s.ie := rfl
@[simp] theorem State.finish_roundctr (s : State) (o : CmdOutcome) : (s.finish o).roundctr = BitVec.ofNat 16 (finalCount o) := rfl
@[simp] theorem State.finish_pending (s : State) (o : CmdOutcome) : (s.finish o).pending = none := rfl
@[simp] theorem State.finish_host (s : State) (o : CmdOutcome) : (s.finish o).host = s.host := rfl
@[simp] theorem State.finish_turns (s : State) (o : CmdOutcome) : (s.finish o).turns = s.turns := rfl
@[simp] theorem State.finish_reads (s : State) (o : CmdOutcome) : (s.finish o).reads = s.reads := rfl

/-! ### resetCycle -/

@[simp] theorem State.resetCycle_cfg (s : State) (drop : Bool) : (s.resetCycle drop).cfg = s.cfg := rfl
@[simp] theorem State.resetCycle_xl (s : State) (drop : Bool) : (s.resetCycle drop).xl = (State.resetOf s.cfg).xl := rfl
@[simp] theorem State.resetCycle_xr (s : State) (drop : Bool) : (s.resetCycle drop).xr = (State.resetOf s.cfg).xr := rfl
@[simp] theorem State.resetCycle_key (s : State) (drop : Bool) : (s.resetCycle drop).key = (State.resetOf s.cfg).key := rfl
@[simp] theorem State.resetCycle_a (s : State) (drop : Bool) : (s.resetCycle drop).a = (State.resetOf s.cfg).a := rfl
@[simp] theorem State.resetCycle_b (s : State) (drop : Bool) : (s.resetCycle drop).b = (State.resetOf s.cfg).b := rfl
@[simp] theorem State.resetCycle_r (s : State) (drop : Bool) : (s.resetCycle drop).r = (State.resetOf s.cfg).r := rfl
@[simp] theorem State.resetCycle_cmd (s : State) (drop : Bool) : (s.resetCycle drop).cmd = (State.resetOf s.cfg).cmd := rfl
@[simp] theorem State.resetCycle_busy (s : State) (drop : Bool) : (s.resetCycle drop).busy = (State.resetOf s.cfg).busy := rfl
@[simp] theorem State.resetCycle_done (s : State) (drop : Bool) : (s.resetCycle drop).done = (State.resetOf s.cfg).done := rfl
@[simp] theorem State.resetCycle_eq (s : State) (drop : Bool) : (s.resetCycle drop).eq = (State.resetOf s.cfg).eq := rfl
@[simp] theorem State.resetCycle_sqzf (s : State) (drop : Bool) : (s.resetCycle drop).sqzf = (State.resetOf s.cfg).sqzf := rfl
@[simp] theorem State.resetCycle_cfgerr (s : State) (drop : Bool) : (s.resetCycle drop).cfgerr = (State.resetOf s.cfg).cfgerr := rfl
@[simp] theorem State.resetCycle_err (s : State) (drop : Bool) : (s.resetCycle drop).err = (State.resetOf s.cfg).err := rfl
@[simp] theorem State.resetCycle_errarg (s : State) (drop : Bool) : (s.resetCycle drop).errarg = (State.resetOf s.cfg).errarg := rfl
@[simp] theorem State.resetCycle_ie (s : State) (drop : Bool) : (s.resetCycle drop).ie = (State.resetOf s.cfg).ie := rfl
@[simp] theorem State.resetCycle_roundctr (s : State) (drop : Bool) : (s.resetCycle drop).roundctr = (State.resetOf s.cfg).roundctr := rfl
@[simp] theorem State.resetCycle_pending (s : State) (drop : Bool) : (s.resetCycle drop).pending = (State.resetOf s.cfg).pending := rfl
@[simp] theorem State.resetCycle_host (s : State) (drop : Bool) : (s.resetCycle drop).host = if drop then s.host.tail else s.host := rfl
@[simp] theorem State.resetCycle_turns (s : State) (drop : Bool) : (s.resetCycle drop).turns = s.turns := rfl
@[simp] theorem State.resetCycle_reads (s : State) (drop : Bool) : (s.resetCycle drop).reads = s.reads := rfl

/-! ### delivered -/

@[simp] theorem State.delivered_cfg (s : State) (v : Nat) : (s.delivered v).cfg = s.cfg := rfl
@[simp] theorem State.delivered_xl (s : State) (v : Nat) : (s.delivered v).xl = s.xl := rfl
@[simp] theorem State.delivered_xr (s : State) (v : Nat) : (s.delivered v).xr = s.xr := rfl
@[simp] theorem State.delivered_key (s : State) (v : Nat) : (s.delivered v).key = s.key := rfl
@[simp] theorem State.delivered_a (s : State) (v : Nat) : (s.delivered v).a = s.a := rfl
@[simp] theorem State.delivered_b (s : State) (v : Nat) : (s.delivered v).b = s.b := rfl
@[simp] theorem State.delivered_r (s : State) (v : Nat) : (s.delivered v).r = s.r := rfl
@[simp] theorem State.delivered_cmd (s : State) (v : Nat) : (s.delivered v).cmd = s.cmd := rfl
@[simp] theorem State.delivered_busy (s : State) (v : Nat) : (s.delivered v).busy = s.busy := rfl
@[simp] theorem State.delivered_done (s : State) (v : Nat) : (s.delivered v).done = s.done := rfl
@[simp] theorem State.delivered_eq (s : State) (v : Nat) : (s.delivered v).eq = s.eq := rfl
@[simp] theorem State.delivered_sqzf (s : State) (v : Nat) : (s.delivered v).sqzf = s.sqzf := rfl
@[simp] theorem State.delivered_cfgerr (s : State) (v : Nat) : (s.delivered v).cfgerr = s.cfgerr := rfl
@[simp] theorem State.delivered_err (s : State) (v : Nat) : (s.delivered v).err = s.err := rfl
@[simp] theorem State.delivered_errarg (s : State) (v : Nat) : (s.delivered v).errarg = s.errarg := rfl
@[simp] theorem State.delivered_ie (s : State) (v : Nat) : (s.delivered v).ie = s.ie := rfl
@[simp] theorem State.delivered_roundctr (s : State) (v : Nat) : (s.delivered v).roundctr = s.roundctr := rfl
@[simp] theorem State.delivered_pending (s : State) (v : Nat) : (s.delivered v).pending = s.pending := rfl
@[simp] theorem State.delivered_host (s : State) (v : Nat) : (s.delivered v).host = s.host := rfl
@[simp] theorem State.delivered_turns (s : State) (v : Nat) : (s.delivered v).turns = s.turns := rfl
@[simp] theorem State.delivered_reads (s : State) (v : Nat) : (s.delivered v).reads = s.reads ++ [v] := rfl

/-! ### withTurns -/

@[simp] theorem State.withTurns_cfg (s : State) (ts : List Turn) : (s.withTurns ts).cfg = s.cfg := rfl
@[simp] theorem State.withTurns_xl (s : State) (ts : List Turn) : (s.withTurns ts).xl = s.xl := rfl
@[simp] theorem State.withTurns_xr (s : State) (ts : List Turn) : (s.withTurns ts).xr = s.xr := rfl
@[simp] theorem State.withTurns_key (s : State) (ts : List Turn) : (s.withTurns ts).key = s.key := rfl
@[simp] theorem State.withTurns_a (s : State) (ts : List Turn) : (s.withTurns ts).a = s.a := rfl
@[simp] theorem State.withTurns_b (s : State) (ts : List Turn) : (s.withTurns ts).b = s.b := rfl
@[simp] theorem State.withTurns_r (s : State) (ts : List Turn) : (s.withTurns ts).r = s.r := rfl
@[simp] theorem State.withTurns_cmd (s : State) (ts : List Turn) : (s.withTurns ts).cmd = s.cmd := rfl
@[simp] theorem State.withTurns_busy (s : State) (ts : List Turn) : (s.withTurns ts).busy = s.busy := rfl
@[simp] theorem State.withTurns_done (s : State) (ts : List Turn) : (s.withTurns ts).done = s.done := rfl
@[simp] theorem State.withTurns_eq (s : State) (ts : List Turn) : (s.withTurns ts).eq = s.eq := rfl
@[simp] theorem State.withTurns_sqzf (s : State) (ts : List Turn) : (s.withTurns ts).sqzf = s.sqzf := rfl
@[simp] theorem State.withTurns_cfgerr (s : State) (ts : List Turn) : (s.withTurns ts).cfgerr = s.cfgerr := rfl
@[simp] theorem State.withTurns_err (s : State) (ts : List Turn) : (s.withTurns ts).err = s.err := rfl
@[simp] theorem State.withTurns_errarg (s : State) (ts : List Turn) : (s.withTurns ts).errarg = s.errarg := rfl
@[simp] theorem State.withTurns_ie (s : State) (ts : List Turn) : (s.withTurns ts).ie = s.ie := rfl
@[simp] theorem State.withTurns_roundctr (s : State) (ts : List Turn) : (s.withTurns ts).roundctr = s.roundctr := rfl
@[simp] theorem State.withTurns_pending (s : State) (ts : List Turn) : (s.withTurns ts).pending = s.pending := rfl
@[simp] theorem State.withTurns_host (s : State) (ts : List Turn) : (s.withTurns ts).host = s.host := rfl
@[simp] theorem State.withTurns_turns (s : State) (ts : List Turn) : (s.withTurns ts).turns = ts := rfl
@[simp] theorem State.withTurns_reads (s : State) (ts : List Turn) : (s.withTurns ts).reads = s.reads := rfl

/-! ### popHost -/

@[simp] theorem State.popHost_cfg (s : State) : (s.popHost).cfg = s.cfg := rfl
@[simp] theorem State.popHost_xl (s : State) : (s.popHost).xl = s.xl := rfl
@[simp] theorem State.popHost_xr (s : State) : (s.popHost).xr = s.xr := rfl
@[simp] theorem State.popHost_key (s : State) : (s.popHost).key = s.key := rfl
@[simp] theorem State.popHost_a (s : State) : (s.popHost).a = s.a := rfl
@[simp] theorem State.popHost_b (s : State) : (s.popHost).b = s.b := rfl
@[simp] theorem State.popHost_r (s : State) : (s.popHost).r = s.r := rfl
@[simp] theorem State.popHost_cmd (s : State) : (s.popHost).cmd = s.cmd := rfl
@[simp] theorem State.popHost_busy (s : State) : (s.popHost).busy = s.busy := rfl
@[simp] theorem State.popHost_done (s : State) : (s.popHost).done = s.done := rfl
@[simp] theorem State.popHost_eq (s : State) : (s.popHost).eq = s.eq := rfl
@[simp] theorem State.popHost_sqzf (s : State) : (s.popHost).sqzf = s.sqzf := rfl
@[simp] theorem State.popHost_cfgerr (s : State) : (s.popHost).cfgerr = s.cfgerr := rfl
@[simp] theorem State.popHost_err (s : State) : (s.popHost).err = s.err := rfl
@[simp] theorem State.popHost_errarg (s : State) : (s.popHost).errarg = s.errarg := rfl
@[simp] theorem State.popHost_ie (s : State) : (s.popHost).ie = s.ie := rfl
@[simp] theorem State.popHost_roundctr (s : State) : (s.popHost).roundctr = s.roundctr := rfl
@[simp] theorem State.popHost_pending (s : State) : (s.popHost).pending = s.pending := rfl
@[simp] theorem State.popHost_host (s : State) : (s.popHost).host = s.host.tail := rfl
@[simp] theorem State.popHost_turns (s : State) : (s.popHost).turns = s.turns := rfl
@[simp] theorem State.popHost_reads (s : State) : (s.popHost).reads = s.reads := rfl

/-! ### withFetchWord -/

@[simp] theorem State.withFetchWord_cfg (s : State) (nbits w : Nat) : (s.withFetchWord nbits w).cfg = s.cfg := rfl
@[simp] theorem State.withFetchWord_xl (s : State) (nbits w : Nat) : (s.withFetchWord nbits w).xl = s.xl := rfl
@[simp] theorem State.withFetchWord_xr (s : State) (nbits w : Nat) : (s.withFetchWord nbits w).xr = s.xr := rfl
@[simp] theorem State.withFetchWord_key (s : State) (nbits w : Nat) : (s.withFetchWord nbits w).key = s.key := rfl
@[simp] theorem State.withFetchWord_a (s : State) (nbits w : Nat) : (s.withFetchWord nbits w).a = s.a := rfl
@[simp] theorem State.withFetchWord_b (s : State) (nbits w : Nat) : (s.withFetchWord nbits w).b = s.b := rfl
@[simp] theorem State.withFetchWord_r (s : State) (nbits w : Nat) : (s.withFetchWord nbits w).r = s.r := rfl
@[simp] theorem State.withFetchWord_cmd (s : State) (nbits w : Nat) : (s.withFetchWord nbits w).cmd = s.cmd := rfl
@[simp] theorem State.withFetchWord_busy (s : State) (nbits w : Nat) : (s.withFetchWord nbits w).busy = false := rfl
@[simp] theorem State.withFetchWord_done (s : State) (nbits w : Nat) : (s.withFetchWord nbits w).done = s.done := rfl
@[simp] theorem State.withFetchWord_eq (s : State) (nbits w : Nat) : (s.withFetchWord nbits w).eq = s.eq := rfl
@[simp] theorem State.withFetchWord_sqzf (s : State) (nbits w : Nat) : (s.withFetchWord nbits w).sqzf = s.sqzf := rfl
@[simp] theorem State.withFetchWord_cfgerr (s : State) (nbits w : Nat) : (s.withFetchWord nbits w).cfgerr = s.cfgerr := rfl
@[simp] theorem State.withFetchWord_err (s : State) (nbits w : Nat) : (s.withFetchWord nbits w).err = s.err := rfl
@[simp] theorem State.withFetchWord_errarg (s : State) (nbits w : Nat) : (s.withFetchWord nbits w).errarg = s.errarg := rfl
@[simp] theorem State.withFetchWord_ie (s : State) (nbits w : Nat) : (s.withFetchWord nbits w).ie = s.ie := rfl
@[simp] theorem State.withFetchWord_roundctr (s : State) (nbits w : Nat) : (s.withFetchWord nbits w).roundctr = s.roundctr := rfl
@[simp] theorem State.withFetchWord_pending (s : State) (nbits w : Nat) : (s.withFetchWord nbits w).pending = none := rfl
@[simp] theorem State.withFetchWord_host (s : State) (nbits w : Nat) : (s.withFetchWord nbits w).host = .write 0x00 (w % 2 ^ nbits) :: s.host := rfl
@[simp] theorem State.withFetchWord_turns (s : State) (nbits w : Nat) : (s.withFetchWord nbits w).turns = .host :: s.turns := rfl
@[simp] theorem State.withFetchWord_reads (s : State) (nbits w : Nat) : (s.withFetchWord nbits w).reads = s.reads := rfl

/-! ### setField -/

@[simp] theorem State.setField_cfg (s : State) (f : FieldReg) (v : Nat) : (s.setField f v).cfg = s.cfg := by
  cases f <;> rfl
@[simp] theorem State.setField_xl (s : State) (f : FieldReg) (v : Nat) :
    (s.setField f v).xl = if f = .xl then v else s.xl := by cases f <;> rfl
@[simp] theorem State.setField_xr (s : State) (f : FieldReg) (v : Nat) :
    (s.setField f v).xr = if f = .xr then v else s.xr := by cases f <;> rfl
@[simp] theorem State.setField_key (s : State) (f : FieldReg) (v : Nat) :
    (s.setField f v).key = if f = .key then v else s.key := by cases f <;> rfl
@[simp] theorem State.setField_a (s : State) (f : FieldReg) (v : Nat) :
    (s.setField f v).a = if f = .a then v else s.a := by cases f <;> rfl
@[simp] theorem State.setField_b (s : State) (f : FieldReg) (v : Nat) :
    (s.setField f v).b = if f = .b then v else s.b := by cases f <;> rfl
@[simp] theorem State.setField_r (s : State) (f : FieldReg) (v : Nat) :
    (s.setField f v).r = if f = .r then v else s.r := by cases f <;> rfl
@[simp] theorem State.setField_cmd (s : State) (f : FieldReg) (v : Nat) : (s.setField f v).cmd = s.cmd := by
  cases f <;> rfl
@[simp] theorem State.setField_busy (s : State) (f : FieldReg) (v : Nat) : (s.setField f v).busy = s.busy := by
  cases f <;> rfl
@[simp] theorem State.setField_done (s : State) (f : FieldReg) (v : Nat) : (s.setField f v).done = s.done := by
  cases f <;> rfl
@[simp] theorem State.setField_eq (s : State) (f : FieldReg) (v : Nat) : (s.setField f v).eq = s.eq := by
  cases f <;> rfl
@[simp] theorem State.setField_sqzf (s : State) (f : FieldReg) (v : Nat) : (s.setField f v).sqzf = s.sqzf := by
  cases f <;> rfl
@[simp] theorem State.setField_cfgerr (s : State) (f : FieldReg) (v : Nat) : (s.setField f v).cfgerr = s.cfgerr := by
  cases f <;> rfl
@[simp] theorem State.setField_err (s : State) (f : FieldReg) (v : Nat) : (s.setField f v).err = s.err := by
  cases f <;> rfl
@[simp] theorem State.setField_errarg (s : State) (f : FieldReg) (v : Nat) : (s.setField f v).errarg = s.errarg := by
  cases f <;> rfl
@[simp] theorem State.setField_ie (s : State) (f : FieldReg) (v : Nat) : (s.setField f v).ie = s.ie := by
  cases f <;> rfl
@[simp] theorem State.setField_roundctr (s : State) (f : FieldReg) (v : Nat) : (s.setField f v).roundctr = s.roundctr := by
  cases f <;> rfl
@[simp] theorem State.setField_pending (s : State) (f : FieldReg) (v : Nat) : (s.setField f v).pending = s.pending := by
  cases f <;> rfl
@[simp] theorem State.setField_host (s : State) (f : FieldReg) (v : Nat) : (s.setField f v).host = s.host := by
  cases f <;> rfl
@[simp] theorem State.setField_turns (s : State) (f : FieldReg) (v : Nat) : (s.setField f v).turns = s.turns := by
  cases f <;> rfl
@[simp] theorem State.setField_reads (s : State) (f : FieldReg) (v : Nat) : (s.setField f v).reads = s.reads := by
  cases f <;> rfl

/-! ### complete and progressed -/

theorem State.complete_none {s : State} (h : s.pending = none) : s.complete = s := by
  simp [State.complete, h]

theorem State.complete_some {s : State} {o : CmdOutcome} (h : s.pending = some o) : s.complete = s.finish o := by
  simp [State.complete, h]

@[simp] theorem State.complete_accepted (s : State) (v : Nat) (o : CmdOutcome) :
    (s.accepted v o).complete = (s.accepted v o).finish o := rfl

/-- Everything the engine's progress can do: nothing, or one more counted round below the final count. -/
theorem State.progressed_cases (s : State) :
    s.progressed = s ∨ ∃ o, s.pending = some o ∧ s.roundctr.toNat < finalCount o ∧
      s.progressed = { s with roundctr := s.roundctr + 1 } := by
  unfold State.progressed
  split
  · exact .inl rfl
  · split
    · exact .inr ⟨_, ‹_›, ‹_›, rfl⟩
    · exact .inl rfl

@[simp] theorem State.progressed_cfg (s : State) : s.progressed.cfg = s.cfg := by
  obtain h | ⟨_, _, _, h⟩ := s.progressed_cases <;> rw [h]
@[simp] theorem State.progressed_xl (s : State) : s.progressed.xl = s.xl := by
  obtain h | ⟨_, _, _, h⟩ := s.progressed_cases <;> rw [h]
@[simp] theorem State.progressed_xr (s : State) : s.progressed.xr = s.xr := by
  obtain h | ⟨_, _, _, h⟩ := s.progressed_cases <;> rw [h]
@[simp] theorem State.progressed_key (s : State) : s.progressed.key = s.key := by
  obtain h | ⟨_, _, _, h⟩ := s.progressed_cases <;> rw [h]
@[simp] theorem State.progressed_a (s : State) : s.progressed.a = s.a := by
  obtain h | ⟨_, _, _, h⟩ := s.progressed_cases <;> rw [h]
@[simp] theorem State.progressed_b (s : State) : s.progressed.b = s.b := by
  obtain h | ⟨_, _, _, h⟩ := s.progressed_cases <;> rw [h]
@[simp] theorem State.progressed_r (s : State) : s.progressed.r = s.r := by
  obtain h | ⟨_, _, _, h⟩ := s.progressed_cases <;> rw [h]
@[simp] theorem State.progressed_cmd (s : State) : s.progressed.cmd = s.cmd := by
  obtain h | ⟨_, _, _, h⟩ := s.progressed_cases <;> rw [h]
@[simp] theorem State.progressed_busy (s : State) : s.progressed.busy = s.busy := by
  obtain h | ⟨_, _, _, h⟩ := s.progressed_cases <;> rw [h]
@[simp] theorem State.progressed_done (s : State) : s.progressed.done = s.done := by
  obtain h | ⟨_, _, _, h⟩ := s.progressed_cases <;> rw [h]
@[simp] theorem State.progressed_eq (s : State) : s.progressed.eq = s.eq := by
  obtain h | ⟨_, _, _, h⟩ := s.progressed_cases <;> rw [h]
@[simp] theorem State.progressed_sqzf (s : State) : s.progressed.sqzf = s.sqzf := by
  obtain h | ⟨_, _, _, h⟩ := s.progressed_cases <;> rw [h]
@[simp] theorem State.progressed_cfgerr (s : State) : s.progressed.cfgerr = s.cfgerr := by
  obtain h | ⟨_, _, _, h⟩ := s.progressed_cases <;> rw [h]
@[simp] theorem State.progressed_err (s : State) : s.progressed.err = s.err := by
  obtain h | ⟨_, _, _, h⟩ := s.progressed_cases <;> rw [h]
@[simp] theorem State.progressed_errarg (s : State) : s.progressed.errarg = s.errarg := by
  obtain h | ⟨_, _, _, h⟩ := s.progressed_cases <;> rw [h]
@[simp] theorem State.progressed_ie (s : State) : s.progressed.ie = s.ie := by
  obtain h | ⟨_, _, _, h⟩ := s.progressed_cases <;> rw [h]
@[simp] theorem State.progressed_pending (s : State) : s.progressed.pending = s.pending := by
  obtain h | ⟨_, _, _, h⟩ := s.progressed_cases <;> rw [h]
@[simp] theorem State.progressed_host (s : State) : s.progressed.host = s.host := by
  obtain h | ⟨_, _, _, h⟩ := s.progressed_cases <;> rw [h]
@[simp] theorem State.progressed_turns (s : State) : s.progressed.turns = s.turns := by
  obtain h | ⟨_, _, _, h⟩ := s.progressed_cases <;> rw [h]
@[simp] theorem State.progressed_reads (s : State) : s.progressed.reads = s.reads := by
  obtain h | ⟨_, _, _, h⟩ := s.progressed_cases <;> rw [h]
@[simp] theorem State.complete_cfg (s : State) : s.complete.cfg = s.cfg := by
  unfold State.complete; split <;> rfl
@[simp] theorem State.complete_key (s : State) : s.complete.key = s.key := by
  unfold State.complete; split <;> rfl
@[simp] theorem State.complete_a (s : State) : s.complete.a = s.a := by
  unfold State.complete; split <;> rfl
@[simp] theorem State.complete_b (s : State) : s.complete.b = s.b := by
  unfold State.complete; split <;> rfl
@[simp] theorem State.complete_cmd (s : State) : s.complete.cmd = s.cmd := by
  unfold State.complete; split <;> rfl
@[simp] theorem State.complete_cfgerr (s : State) : s.complete.cfgerr = s.cfgerr := by
  unfold State.complete; split <;> rfl
@[simp] theorem State.complete_ie (s : State) : s.complete.ie = s.ie := by
  unfold State.complete; split <;> rfl
@[simp] theorem State.complete_host (s : State) : s.complete.host = s.host := by
  unfold State.complete; split <;> rfl
@[simp] theorem State.complete_turns (s : State) : s.complete.turns = s.turns := by
  unfold State.complete; split <;> rfl
@[simp] theorem State.complete_reads (s : State) : s.complete.reads = s.reads := by
  unfold State.complete; split <;> rfl

end Sys2Proof.Machine
end

