-- ==== Sys2Proof/Laws/Ops.lean ====
section
/-! SUPPORT. What each shared operation can do, said once: the checks, the presenting of a command, the port and the
step. -/

namespace Sys2Proof.Machine

/-! ### The checks of 40_command_execution.md R81 and R82 -/

@[simp] theorem canon_iff (p v : Nat) : canon p v = true ↔ v < p := by simp [canon]

theorem checked_nil (s : State) (o : CmdOutcome) : checked s [] o = o := rfl

theorem checked_cons_ok {s : State} {f : FieldReg} {fs : List FieldReg} {o : CmdOutcome} (h : s.fieldVal f < s.cfg.p) :
    checked s (f :: fs) o = checked s fs o := by
  simp [checked, h]

theorem checked_cons_fail {s : State} {f : FieldReg} {fs : List FieldReg} {o : CmdOutcome}
    (h : s.cfg.p ≤ s.fieldVal f) : checked s (f :: fs) o = .fail .invalidInput (fieldAddr f) := by
  simp [checked, h]

theorem indexed_ok {s : State} {imm : Nat} (o : CmdOutcome) (h : imm < s.cfg.nr) : indexed s imm o = o := if_pos h

theorem indexed_fail {s : State} {imm : Nat} (o : CmdOutcome) (h : s.cfg.nr ≤ imm) :
    indexed s imm o = .fail .indexRange 0 := if_neg (Nat.not_lt.mpr h)

theorem romReader_ok {s : State} (o : CmdOutcome) (h : s.cfgerr = false) : romReader s o = o := by
  simp [romReader, h]

theorem romReader_fail {s : State} (o : CmdOutcome) (h : s.cfgerr = true) :
    romReader s o = .fail .configMismatch 0 := by
  simp [romReader, h]

/-- The operand check answers the command's own outcome, with every operand canonical, or an INVALID_INPUT failure. -/
theorem checked_cases (s : State) (fs : List FieldReg) (o : CmdOutcome) :
    (checked s fs o = o ∧ ∀ f ∈ fs, s.fieldVal f < s.cfg.p) ∨
      ∃ f ∈ fs, s.cfg.p ≤ s.fieldVal f ∧ checked s fs o = .fail .invalidInput (fieldAddr f) := by
  induction fs with
  | nil => exact .inl ⟨rfl, by simp⟩
  | cons f fs ih =>
    by_cases h : s.fieldVal f < s.cfg.p
    · rw [checked_cons_ok h]
      obtain ⟨h1, h2⟩ | ⟨g, hg, h1, h2⟩ := ih
      · exact .inl ⟨h1, by simpa [h] using h2⟩
      · exact .inr ⟨g, .tail _ hg, h1, h2⟩
    · exact .inr ⟨f, .head _, Nat.not_lt.mp h, checked_cons_fail (Nat.not_lt.mp h)⟩

/-! ### Presenting a command -/

theorem issueValue_busy {s : State} (v : Nat) (o : CmdOutcome) (h : s.busy = true) : issueValue v o s = .next s := by
  simp [issueValue, h]

theorem issueValue_idle {s : State} (v : Nat) (o : CmdOutcome) (h : s.busy = false) :
    issueValue v o s = .next (s.accepted v o) := by
  simp [issueValue, h]

theorem issue_busy {s : State} (i : Instr) (o : CmdOutcome) (h : s.busy = true) : issue i o s = .next s :=
  issueValue_busy _ o h

theorem issue_idle {s : State} (i : Instr) (o : CmdOutcome) (h : s.busy = false) :
    issue i o s = .next (s.accepted (encode i) o) :=
  issueValue_idle _ o h

/-- Every command only presents its own word with some outcome. -/
theorem exec_is_issue (i : Instr) (s : State) : ∃ o, exec i s = issue i o s := by
  cases i <;> exact ⟨_, rfl⟩

/-- Presenting a command always answers a next state: the held one, or the accepted one. -/
theorem exec_next (i : Instr) (s : State) :
    (s.busy = true ∧ exec i s = .next s) ∨
      (s.busy = false ∧ ∃ o, exec i s = .next (s.accepted (encode i) o)) := by
  obtain ⟨o, h⟩ := exec_is_issue i s
  cases hb : s.busy with
  | true => exact .inl ⟨rfl, h.trans (issue_busy i o hb)⟩
  | false => exact .inr ⟨rfl, o, h.trans (issue_idle i o hb)⟩

/-! ### The encoding -/

theorem encode_lt (i : Instr) : encode i < 2 ^ 32 := by
  cases i <;> simp only [encode, formatC] <;> omega

/-! ### The port -/

/-- `DW ≥ 64`, so the two halves of the check say one thing: the value has at most `DW` bits. -/
theorem carries_iff (c : Config) (v : Nat) : c.carries v = true ↔ v < 2 ^ c.dw := by
  have h : 2 ^ 64 ≤ 2 ^ c.dw := Nat.pow_le_pow_right (by decide) c.wf.dw_ge
  simp only [Config.carries, Bool.or_eq_true, decide_eq_true_eq]
  omega

/-- A register and its host address are each other's (20_memory.md R46). -/
theorem regAt_regAddr (reg : HostReg) : regAt (regAddr reg) = some reg := by
  cases reg with
  | field f => cases f <;> rfl
  | _ => rfl

/-- Everything a CMD write can do. -/
theorem issueWord_cases (v : Nat) (s : State) :
    (s.busy = true ∧ issueWord v s = .next s) ∨
      (s.busy = false ∧ ∃ i, decode v = .ok i ∧ issueWord v s = exec i s) ∨
      (s.busy = false ∧ (∃ e, decode v = .error e) ∧ issueWord v s = .next (s.accepted v illegalOutcome)) := by
  unfold issueWord
  cases hd : decode v with
  | ok i =>
    obtain ⟨hb, h⟩ | ⟨hb, -⟩ := exec_next i s
    · exact .inl ⟨hb, h⟩
    · exact .inr (.inl ⟨hb, i, rfl, rfl⟩)
  | error e =>
    cases hb : s.busy with
    | true => exact .inl ⟨rfl, issueValue_busy _ _ hb⟩
    | false => exact .inr (.inr ⟨rfl, ⟨e, rfl⟩, issueValue_idle _ _ hb⟩)

/-- Everything a HostWrite that answers a next state can do. -/
theorem hostWrite_next {addr : BitVec 5} {v : Nat} {s t : State} (h : hostWrite addr v s = .next t) :
    s.cfg.carries v = true ∧
      ((regAt addr = some .cmd ∧ issueWord v s = .next t) ∨
        (regAt addr = some .status ∧ (t = s ∨ t = { s with done := false })) ∨
        (regAt addr = some .ctrl ∧ t = { s with ie := slice v 0 0 == 1 }) ∨
        (∃ f, regAt addr = some (.field f) ∧ t = s.setField f v) ∨ t = s) := by
  unfold hostWrite at h
  split at h
  · refine ⟨‹_›, ?_⟩
    split at h
    · rename_i reg hreg
      cases reg <;> simp only [writeReg, Host.Outcome.next.injEq] at h
      · exact .inl ⟨hreg, h⟩
      · split at h
        · exact .inr (.inl ⟨hreg, .inr h.symm⟩)
        · exact .inr (.inl ⟨hreg, .inl h.symm⟩)
      · exact .inr (.inr (.inl ⟨hreg, h.symm⟩))
      · exact .inr (.inr (.inr (.inr h.symm)))
      · exact .inr (.inr (.inr (.inr h.symm)))
      · exact .inr (.inr (.inr (.inr h.symm)))
      · exact .inr (.inr (.inr (.inl ⟨_, hreg, h.symm⟩)))
    · exact .inr (.inr (.inr (.inr (Host.Outcome.next.inj h).symm)))
  · cases h

theorem hostMove_cons {s : State} {op : HostOp} {rest : List HostOp} (h : s.host = op :: rest) :
    hostMove s = if held s op then .next s else perform op s := by
  unfold hostMove; rw [h]

theorem step_cons {s : State} {t : Turn} {ts : List Turn} (h : s.turns = t :: ts) :
    step s = takeTurn t (s.withTurns ts) := by
  unfold step; rw [h]

theorem step_nil {s : State} (h : s.turns = []) : step s = defaultMove s := by
  unfold step; rw [h]

/-- The host's move, whether the schedule names it or is empty with nothing pending. -/
theorem step_host {s : State} {ts : List Turn}
    (h : s.turns = .host :: ts ∨ s.turns = [] ∧ ts = [] ∧ s.pending = none) : step s = hostMove (s.withTurns ts) := by
  obtain h | ⟨h, rfl, hp⟩ := h
  · exact step_cons h
  · rw [step_nil h, defaultMove, if_neg (by simp [hp]), State.withTurns, ← h]

/-- What the port serves in a step is the head of the host's list, and the step is then the host's move. -/
theorem portOp_some {s : State} {op : HostOp} (h : portOp s = some op) :
    ∃ rest ts, s.host = op :: rest ∧ (s.turns = .host :: ts ∨ s.turns = [] ∧ ts = [] ∧ s.pending = none) := by
  have hd : s.host.head? = some op → ∃ rest, s.host = op :: rest := fun h => by
    obtain ⟨rest, h⟩ := List.head?_eq_some_iff.mp h
    exact ⟨rest, h⟩
  unfold portOp at h
  split at h <;> try cases h
  · rename_i ht
    split at h <;> try cases h
    obtain ⟨rest, hh⟩ := hd h
    exact ⟨rest, [], hh, .inr ⟨ht, rfl, Option.not_isSome_iff_eq_none.mp ‹_›⟩⟩
  · rename_i ts ht
    obtain ⟨rest, hh⟩ := hd h
    exact ⟨rest, ts, hh, .inl ht⟩

/-- On the host's move the port serves the head of the host's list. -/
theorem portOp_host {s : State} {ts : List Turn}
    (h : s.turns = .host :: ts ∨ s.turns = [] ∧ ts = [] ∧ s.pending = none) : portOp s = s.host.head? := by
  obtain h | ⟨h, -, hp⟩ := h
  · simp [portOp, h]
  · simp [portOp, h, hp]

/-- `ack` is 1 exactly when the port serves a transaction that is not held. -/
theorem portAck_iff {s : State} : portAck s = true ↔ ∃ op, portOp s = some op ∧ held s op = false := by
  unfold portAck
  cases portOp s <;> simp

/-- A CMD write the port can carry presents its value. -/
theorem hostWrite_cmd {s : State} {v : Nat} (h : s.cfg.carries v = true) : hostWrite 0x00 v s = issueWord v s := by
  unfold hostWrite; rw [if_pos h]; rfl

/-- Everything the host's turn can do when it answers a next state. -/
theorem hostMove_next {s t : State} (h : hostMove s = .next t) :
    t = s ∨
      (∃ addr rest, s.host = .read addr :: rest ∧ t = s.popHost.delivered (hostRead s addr)) ∨
      (∃ addr v rest, s.host = .write addr v :: rest ∧ held s (.write addr v) = false ∧
        hostWrite addr v s.popHost = .next t) ∨
      (∃ rest, s.host = .poll :: rest ∧ t = (if s.busy then s else s.popHost).delivered s.statusWord) := by
  unfold hostMove at h
  split at h
  · exact .inl (Host.Outcome.next.inj h).symm
  · rename_i op rest hh
    split at h
    · exact .inl (Host.Outcome.next.inj h).symm
    · rename_i hb
      cases op with
      | read addr => exact .inr (.inl ⟨addr, rest, hh, (Host.Outcome.next.inj h).symm⟩)
      | write addr v => exact .inr (.inr (.inl ⟨addr, v, rest, hh, by simpa using hb, h⟩))
      | poll => exact .inr (.inr (.inr ⟨rest, hh, (Host.Outcome.next.inj h).symm⟩))

theorem regAt_eq_some {addr : BitVec 5} {reg : HostReg} (h : regAt addr = some reg) : addr = regAddr reg := by
  have key : ∀ a : BitVec 5, regAt a = none ∨ ∃ r, regAt a = some r ∧ a = regAddr r := by
    intro a
    have h : ∀ n, n < 32 → regAt (BitVec.ofNat 5 n) = none ∨
        ∃ r, regAt (BitVec.ofNat 5 n) = some r ∧ BitVec.ofNat 5 n = regAddr r := by
      intro n hn
      interval_cases n <;> first | exact .inl rfl | exact .inr ⟨_, rfl, rfl⟩
    simpa using h a.toNat a.isLt
  obtain h' | ⟨r, h', ha⟩ := key addr
  · rw [h'] at h; cases h
  · rw [h'] at h; cases h; exact ha

/-- Everything the host's turn can do, transaction by transaction, when it answers a next state. -/
theorem hostMove_cases {s t : State} (h : hostMove s = .next t) :
    t = s ∨ t = s.popHost ∨
      (∃ v u, (u = s ∨ u = s.popHost) ∧ t = u.delivered v) ∨
      (∃ v rest, s.host = .write 0x00 v :: rest ∧ s.busy = false ∧ s.cfg.carries v = true ∧
        issueWord v s.popHost = .next t) ∨
      (∃ v rest, s.host = .write 0x01 v :: rest ∧ slice v 1 1 = 1 ∧ t = { s.popHost with done := false }) ∨
      (∃ v rest, s.host = .write 0x02 v :: rest ∧ t = { s.popHost with ie := slice v 0 0 == 1 }) ∨
      ∃ f v rest, s.host = .write (fieldAddr f) v :: rest ∧ s.busy = false ∧ s.cfg.carries v = true ∧
        t = s.popHost.setField f v := by
  obtain h | ⟨addr, rest, hh, rfl⟩ | ⟨addr, v, rest, hh, hd, hw⟩ | ⟨rest, hh, rfl⟩ := hostMove_next h
  · exact .inl h
  · exact .inr (.inr (.inl ⟨_, _, .inr rfl, rfl⟩))
  · obtain ⟨hc, -⟩ := hostWrite_next hw
    unfold hostWrite at hw
    rw [if_pos hc] at hw
    cases hr : regAt addr with
    | none => rw [hr] at hw; exact .inr (.inl (Host.Outcome.next.inj hw).symm)
    | some reg =>
      obtain rfl := regAt_eq_some hr
      have hb : waitsWhileBusy true (some reg) = true → s.busy = false := by
        intro hb; simpa [held, hr, hb] using hd
      rw [hr] at hw
      cases reg <;> simp only [writeReg] at hw
      · exact .inr (.inr (.inr (.inl ⟨v, rest, hh, hb rfl, hc, hw⟩)))
      · split at hw
        · exact .inr (.inr (.inr (.inr (.inl ⟨v, rest, hh, ‹_›, (Host.Outcome.next.inj hw).symm⟩))))
        · exact .inr (.inl (Host.Outcome.next.inj hw).symm)
      · exact .inr (.inr (.inr (.inr (.inr (.inl ⟨v, rest, hh, (Host.Outcome.next.inj hw).symm⟩)))))
      · exact .inr (.inl (Host.Outcome.next.inj hw).symm)
      · exact .inr (.inl (Host.Outcome.next.inj hw).symm)
      · exact .inr (.inl (Host.Outcome.next.inj hw).symm)
      · exact .inr (.inr (.inr (.inr (.inr (.inr ⟨_, v, rest, hh, hb rfl, hc, (Host.Outcome.next.inj hw).symm⟩)))))
  · refine .inr (.inr (.inl ⟨_, _, ?_, rfl⟩))
    split
    · exact .inl rfl
    · exact .inr rfl

/-! ### The step -/

/-- Everything a step that answers a next state can do: `u` is the state with its turn taken off the schedule. -/
theorem step_next {s t : State} (h : step s = .next t) :
    ∃ u, (u = s ∨ ∃ x ts, s.turns = x :: ts ∧ u = s.withTurns ts) ∧
      (hostMove u = .next t ∨ t = u.progressed ∨ t = u.complete ∨
        ∃ drop ts, s.turns = .reset drop :: ts ∧ t = u.resetCycle drop) := by
  unfold step at h
  split at h
  · refine ⟨s, .inl rfl, ?_⟩
    unfold defaultMove at h
    split at h
    · exact .inr (.inr (.inl (Host.Outcome.next.inj h).symm))
    · exact .inl h
  · rename_i x ts hx
    refine ⟨s.withTurns ts, .inr ⟨x, ts, hx, rfl⟩, ?_⟩
    cases x with
    | host => exact .inl h
    | progress => exact .inr (.inl (Host.Outcome.next.inj h).symm)
    | complete => exact .inr (.inr (.inl (Host.Outcome.next.inj h).symm))
    | reset drop => exact .inr (.inr (.inr ⟨drop, ts, hx, (Host.Outcome.next.inj h).symm⟩))

/-- A run takes its first step and goes on from there. -/
theorem run_step {s t : State} (k : Nat) (h : step s = .next t) :
    Host.Core.run core (k + 1) s = Host.Core.run core k t := by
  have h' : core.step s = .next t := h
  simp only [Host.Core.run, h']

end Sys2Proof.Machine
end

