-- ==== Sys2Proof/Laws/PerInstr.lean ====
section
/-! SUPPORT. The statements made of each command as syntax, one lemma per constructor. -/

namespace Sys2Proof.Laws

/-- A command is one 32-bit word with RSV = 0, and its IMM field is the command's own index, or 0 (30_encoding.md R65,
R66, R67). -/
def OneWord.Statement (i : Instr) : Prop :=
  i.wellFormed = true → encode i < 2 ^ 32 ∧ cmdRsv (encode i) = 0 ∧ cmdUpper (encode i) = 0 ∧
    cmdImm (encode i) = match i with
      | .round imm => imm
      | .ldc imm => imm
      | .fstep imm => imm
      | _ => 0

theorem OneWord.nop : OneWord.Statement .nop := by intro; decide
theorem OneWord.fadd : OneWord.Statement .fadd := by intro; decide
theorem OneWord.fmul : OneWord.Statement .fmul := by intro; decide
theorem OneWord.fpow : OneWord.Statement .fpow := by intro; decide
theorem OneWord.fred : OneWord.Statement .fred := by intro; decide
theorem OneWord.feq : OneWord.Statement .feq := by intro; decide
theorem OneWord.round (imm : Nat) : OneWord.Statement (.round imm) := by
  intro h
  have hi : imm < 65536 := of_decide_eq_true h
  simp only [encode, formatC, cmdRsv, cmdUpper, cmdImm, slice]
  refine ⟨?_, ?_, ?_, ?_⟩ <;> omega
theorem OneWord.ldc (imm : Nat) : OneWord.Statement (.ldc imm) := by
  intro h
  have hi : imm < 65536 := of_decide_eq_true h
  simp only [encode, formatC, cmdRsv, cmdUpper, cmdImm, slice]
  refine ⟨?_, ?_, ?_, ?_⟩ <;> omega
theorem OneWord.fstep (imm : Nat) : OneWord.Statement (.fstep imm) := by
  intro h
  have hi : imm < 65536 := of_decide_eq_true h
  simp only [encode, formatC, cmdRsv, cmdUpper, cmdImm, slice]
  refine ⟨?_, ?_, ?_, ?_⟩ <;> omega
theorem OneWord.perm : OneWord.Statement .perm := by intro; decide
theorem OneWord.enc : OneWord.Statement .enc := by intro; decide
theorem OneWord.dec : OneWord.Statement .dec := by intro; decide
theorem OneWord.sinit : OneWord.Statement .sinit := by intro; decide
theorem OneWord.absorb : OneWord.Statement .absorb := by intro; decide
theorem OneWord.squeeze : OneWord.Statement .squeeze := by intro; decide

end Sys2Proof.Laws
end

