-- ==== Sys2Proof/Tests/Slice0.lean ====
section
/-! SUPPORT. Tests: ill-formed terms refused, command words written out from 30_encoding.md, single commands checked
against the vectors of 95_test_vectors.md, and for every obligation with hypotheses a state that meets them. -/

namespace Sys2Proof.Tests

open Sys2Proof Sys2Proof.Machine Sys2Proof.Claims

/-! ### The test configurations of 95_test_vectors.md, section 0 -/

theorem prime_97 : Nat.Prime 97 := by norm_num

def t1 : Config where
  p := 97
  dw := 64
  nr := 4
  consts := [0, 7, 23, 0]
  wf := ⟨prime_97, by decide, by decide, by decide, by decide, by decide, by decide, by decide, by decide⟩

def t3 : Config where
  p := 97
  dw := 64
  nr := 1
  consts := [5]
  wf := ⟨prime_97, by decide, by decide, by decide, by decide, by decide, by decide, by decide, by decide⟩

def t4 : Config where
  p := 97
  dw := 64
  nr := 4
  consts := [0, 7, 23]
  wf := ⟨prime_97, by decide, by decide, by decide, by decide, by decide, by decide, by decide, by decide⟩

/-- The widths, rounds and constants of T2 on a small prime: it gives no `dw`, so it has the default of 00_scope.md R12. -/
def defaultWidth : Config where
  p := 97
  nr := 3
  consts := [0, 42, 0]
  wf := ⟨prime_97, by decide, by decide, by decide, by decide, by decide, by decide, by decide, by decide⟩

/-- The BN254 prime of configuration T2. -/
def bn254 : Nat := 0x30644e72e131a029b85045b68181585d2833e84879b9709143e1f593f0000001

def r1 : State := State.resetOf t1
def r3 : State := State.resetOf t3
def r4 : State := State.resetOf t4

/-- The reset state of T1 with the Feistel pair and the key of vectors V-F1 to V-F6. -/
def pair123 : State := { r1 with xl := 1, xr := 2, key := 3 }

/-- `pair123` with the ENC of V-C1 pending. -/
def busyEnc : State := pair123.accepted 0x22 (.ok { xl := some 95, xr := some 13 } 4)

/-- The state after command `i` has completed. -/
def after (i : Instr) (s : State) : Option State :=
  match exec i s with
  | .next t => some t.complete
  | _ => none

/-- The state after one step. -/
def stepped (s : State) : Option State :=
  match step s with
  | .next t => some t
  | _ => none

/-! ### WellFormed refuses ill-formed terms (30_encoding.md R67; 20_memory.md R45, R52; 00_scope.md R14) -/

theorem test_round_index_too_wide : Instr.wellFormed (.round 65536) = false := by decide
theorem test_ldc_index_too_wide : Instr.wellFormed (.ldc 65536) = false := by decide
theorem test_fstep_index_too_wide : Instr.wellFormed (.fstep 65536) = false := by decide
theorem test_write_too_wide : HostOp.wellFormed t1 (.write 0x06 (2 ^ 64)) = false := by decide
theorem test_wr_too_wide : HostLine.wellFormed t1 (.wr .ctrl (2 ^ 64)) = false := by decide
theorem test_line_command_ill_formed : HostLine.wellFormed t1 (.command (.fstep 65536)) = false := by decide
theorem test_permute_too_wide : HostLine.wellFormed t1 (.permute (2 ^ 64) 0 0) = false := by decide
theorem test_encrypt_too_wide : HostLine.wellFormed t1 (.encrypt 0 (2 ^ 64) 0) = false := by decide
theorem test_decrypt_too_wide : HostLine.wellFormed t1 (.decrypt 0 0 (2 ^ 64)) = false := by decide
theorem test_hash_too_wide : HostLine.wellFormed t1 (.hash 0 [1, 2 ^ 64] 1) = false := by decide
theorem test_hash_key_too_wide : HostLine.wellFormed t1 (.hash (2 ^ 64) [1] 1) = false := by decide
theorem test_widest_value_carried : HostOp.wellFormed t1 (.write 0x06 (2 ^ 64 - 1)) = true := by decide
theorem test_too_wide_refused : hostWrite 0x06 (2 ^ 64) r1 = .refused .notAPortValue := rfl
theorem test_composite_prime_ill_formed : ¬ Config.WellFormed 96 64 1 [0] := fun h => by
  have := h.prime
  norm_num at this
/-- `gcd(5, 11 - 1) = 5` -/
theorem test_sbox_not_bijective_ill_formed : ¬ Config.WellFormed 11 64 1 [0] := fun h => by
  have := h.coprime
  norm_num at this
theorem test_narrow_port_ill_formed : ¬ Config.WellFormed 97 32 1 [0] := fun h => by
  have := h.dw_ge
  norm_num at this
theorem test_prime_past_port_ill_formed : ¬ Config.WellFormed (2 ^ 64 + 13) 64 1 [0] := fun h => by
  have := h.fits
  norm_num at this
theorem test_no_rounds_ill_formed : ¬ Config.WellFormed 97 64 0 [0] := fun h => by
  have := h.nr_pos
  norm_num at this
theorem test_too_many_rounds_ill_formed : ¬ Config.WellFormed 97 64 65536 [0] := fun h => by
  have := h.nr_le
  norm_num at this
theorem test_empty_rom_ill_formed : ¬ Config.WellFormed 97 64 1 [] := fun h => by
  have := h.nc_pos
  norm_num at this
theorem test_deep_rom_ill_formed : ¬ Config.WellFormed 97 64 1 (List.replicate 65536 0) := fun h => by
  have := h.nc_le
  norm_num at this
theorem test_unreduced_constant_ill_formed : ¬ Config.WellFormed 97 64 1 [97] := fun h => by
  have := h.canonical 97 (by decide)
  norm_num at this

/-! ### Words written out from 30_encoding.md R66, R69 and R78 -/

theorem test_decode_nop : decode 0b00000000000000000000000000000000 = .ok .nop := rfl
theorem test_decode_fadd : decode 0b00000000000000000000000000000001 = .ok .fadd := rfl
theorem test_decode_fmul : decode 0b00000000000000000000000000000010 = .ok .fmul := rfl
theorem test_decode_fpow : decode 0b00000000000000000000000000000011 = .ok .fpow := rfl
theorem test_decode_fred : decode 0b00000000000000000000000000000100 = .ok .fred := rfl
theorem test_decode_feq : decode 0b00000000000000000000000000000101 = .ok .feq := rfl
/-- R78: `round 3` -/
theorem test_decode_round : decode 0b00000000000000110000000000010000 = .ok (.round 3) := rfl
theorem test_decode_ldc : decode 0b10000000000000010000000000010001 = .ok (.ldc 0x8001) := rfl
/-- R78: `fstep 219` -/
theorem test_decode_fstep : decode 0b00000000110110110000000000100000 = .ok (.fstep 219) := rfl
theorem test_decode_perm : decode 0b00000000000000000000000000100001 = .ok .perm := rfl
theorem test_decode_enc : decode 0b00000000000000000000000000100010 = .ok .enc := rfl
theorem test_decode_dec : decode 0b00000000000000000000000000100011 = .ok .dec := rfl
theorem test_decode_sinit : decode 0b00000000000000000000000000110000 = .ok .sinit := rfl
theorem test_decode_absorb : decode 0b00000000000000000000000000110001 = .ok .absorb := rfl
theorem test_decode_squeeze : decode 0b00000000000000000000000000110010 = .ok .squeeze := rfl
/-- V-E5 -/
theorem test_decode_upper : decode 0x100000000 = .error .upper := rfl
/-- V-R12 -/
theorem test_decode_reserved_bits : decode 0x00000110 = .error .reservedBits := rfl
/-- V-E1, V-E2 -/
theorem test_decode_reserved_op : decode 0x00000006 = .error .reservedOp ∧ decode 0x000000FF = .error .reservedOp :=
  ⟨rfl, rfl⟩
/-- V-E6 -/
theorem test_decode_immediate : decode 0x00010021 = .error .immediate := rfl
theorem test_table_word : decodeTableWord 32 0xFFFF0010 = some (.round 65535) := rfl
theorem test_fetch_from_reset : ∃ t, step (State.reset.withFetchWord 32 0x00000005) = .next t ∧ t.cmd = 5 := ⟨_, rfl, rfl⟩

/-! ### One command at a time (95_test_vectors.md, sections 2.1 to 2.7) -/

/-- 40_command_execution.md R84, its example -/
theorem test_nop_status : (after .nop r1).map State.statusWord = some 0xA := by decide
/-- V-E11 -/
theorem test_nop_mismatch : (after .nop r4).map State.statusWord = some 0x1A := by decide
/-- V-A3 -/
theorem test_fadd_wraps : (after .fadd { r1 with a := 96, b := 96 }).map State.r = some 95 := by decide
/-- V-A27 -/
theorem test_fadd_checks_b : (after .fadd { r1 with a := 1, b := 97 }).map State.statusWord = some 0x000A010A := by decide
/-- V-A7 -/
theorem test_fmul_reduces : (after .fmul { r1 with a := 50, b := 60 }).map State.r = some 90 := by decide
/-- V-A28 -/
theorem test_fmul_checks_a_first :
    (after .fmul { r1 with a := 97, b := 97 }).map State.statusWord = some 0x0009010A := by decide
/-- V-A14 -/
theorem test_fpow_exponent_unreduced :
    (after .fpow { r1 with a := 3, b := 18446744073709551615 }).map State.r = some 85 := by decide +kernel
/-- V-A11 -/
theorem test_fpow_zero_zero : (after .fpow { r1 with a := 0, b := 0 }).map State.r = some 1 := by decide
/-- V-A19 -/
theorem test_fred_any_value : (after .fred { r1 with a := 18446744073709551615 }).map State.r = some 60 := by decide
/-- V-A21 -/
theorem test_fred_double_prime : (after .fred { r1 with a := 194 }).map State.r = some 0 := by decide
/-- V-A23 -/
theorem test_feq_equal : (after .feq { r1 with a := 5, b := 5 }).map (fun t => (t.r, t.eq)) = some (1, true) := by decide
/-- V-A24, with EQ set before -/
theorem test_feq_unequal :
    (after .feq { r1 with a := 5, b := 6, eq := true }).map (fun t => (t.r, t.eq)) = some (0, false) := by decide
/-- section 2.3, round 2 with A = 1, KEY = 3 -/
theorem test_round_two : (after (.round 2) { r1 with a := 1, key := 3 }).map State.r = some 85 := by decide
/-- V-R5 -/
theorem test_round_checks_key :
    (after (.round 1) { r1 with a := 1, key := 97 }).map State.statusWord = some 0x0008010A := by decide
/-- V-R6 -/
theorem test_ldc_two : (after (.ldc 2) r1).map State.r = some 23 := by decide
/-- V-R7 -/
theorem test_ldc_past_table : (after (.ldc 4) r1).map State.statusWord = some 0x40A := by decide
/-- V-F6b -/
theorem test_fstep_swaps : (after (.fstep 1) pair123).map (fun t => (t.xl, t.xr)) = some (33, 1) := by decide
/-- V-F6d -/
theorem test_fstep_final_no_swap :
    (after (.fstep 3) pair123).map (fun t => (t.xl, t.xr, t.roundctr)) = some (1, 56, 1) := by decide
/-- V-F1, V-F6l -/
theorem test_perm_four_rounds :
    (after .perm pair123).map (fun t => (t.xl, t.xr, t.roundctr)) = some (95, 13, 4) := by decide
/-- V-F5 -/
theorem test_perm_one_round :
    (after .perm { r3 with xl := 1, xr := 2, key := 3 }).map (fun t => (t.xl, t.xr)) = some (1, 75) := by decide
/-- V-C6 -/
theorem test_enc_other_key : (after .enc { pair123 with key := 4 }).map (fun t => (t.xl, t.xr)) = some (35, 80) := by decide
/-- V-C9 -/
theorem test_enc_keeps_sqzf : (after .enc r1).map (fun t => (t.xl, t.xr, t.sqzf)) = some (94, 74, true) := by decide
/-- V-F2 -/
theorem test_dec_inverts :
    (after .dec { r1 with xl := 95, xr := 13, key := 3 }).map (fun t => (t.xl, t.xr)) = some (1, 2) := by decide
/-- V-C4: DEC is not PERM -/
theorem test_dec_bare : (after .dec pair123).map (fun t => (t.xl, t.xr)) = some (11, 82) := by decide
/-- V-S11 -/
theorem test_sinit_unchecked :
    (after .sinit { r1 with xl := 200, xr := 5, sqzf := false }).map (fun t => (t.xl, t.xr, t.sqzf))
      = some (0, 0, true) := by decide
/-- V-S18 -/
theorem test_sinit_mismatch : (after .sinit r4).map State.statusWord = some 0x1A := by decide
/-- 44_sponge_cipher.md R109, its example -/
theorem test_absorb_five : (after .absorb { r1 with a := 5 }).map (fun t => (t.xl, t.xr)) = some (16, 57) := by decide
/-- V-S13 -/
theorem test_absorb_checks_a :
    (after .absorb { r1 with a := 97 }).map (fun t => (t.xl, t.errarg)) = some (0, 0x09) := by decide
/-- V-S2 and V-S3: the third output, from the state after the second -/
theorem test_squeeze_permutes :
    (after .squeeze { r1 with xl := 63, xr := 75, sqzf := false }).map (fun t => (t.r, t.xl, t.xr, t.roundctr))
      = some (32, 32, 71, 4) := by decide
/-- V-S16 -/
theorem test_squeeze_first :
    (after .squeeze { r1 with xl := 16, xr := 57 }).map (fun t => (t.r, t.xl, t.xr, t.sqzf, t.roundctr))
      = some (16, 16, 57, false, 0) := by decide

/-! ### The port and the step -/

/-- V-H1 -/
theorem test_id_of_t1 : idWord t1 = 0x0105004000040004 := by decide
/-- 00_scope.md R12: the default width, which holds a BN254 element; its ID is that of T2 in section 0 -/
theorem test_default_width :
    defaultWidth.dw = 256 ∧ bn254 < 2 ^ Config.defaultDw ∧ idWord defaultWidth = 0x0105010000030003 := by decide
/-- V-H2 -/
theorem test_reset_status_mismatch : r4.statusWord = 0x218 := by decide
/-- V-H3 -/
theorem test_key_reads_zero : hostRead { r1 with key := 3 } 0x08 = 0 := by decide
/-- V-H5 -/
theorem test_ctrl_takes_bit_zero :
    (stepped { r1 with host := [.write 0x02 0xFFFF] }).map (fun t => hostRead t 0x02) = some 1 := by decide
/-- V-H9, at its last write -/
theorem test_w1c_lowers_irq :
    (stepped { r1 with ie := true, done := true, host := [.write 0x01 2] }).map State.irq = some false := by decide
/-- V-H10: either value, by the schedule -/
theorem test_status_race :
    (stepped { busyEnc with turns := [.host], host := [.read 0x01] }).map State.reads = some [0x9] ∧
      busyEnc.complete.statusWord = 0xA := by decide
/-- 20_memory.md R45: the engine's step acknowledges nothing; the host's step after it delivers `rdata` -/
theorem test_ack_belongs_to_the_read :
    let s := { busyEnc with turns := [.complete, .host], host := [.read 0x01] }
    portAck s = false ∧ rdata s = none ∧
      (stepped s).map (fun t => (portAck t, rdata t, (stepped t).map State.reads)) = some (true, some 0xA, some [0xA]) := by
  decide
/-- 20_memory.md R48, by a step -/
theorem test_step_stores_written_value :
    (stepped { r1 with host := [.write 0x08 (2 ^ 64 - 1)] }).map State.key = some (2 ^ 64 - 1) := by decide
/-- 20_memory.md R51: a read of XL waits while BUSY = 1 -/
theorem test_held_read_waits :
    (stepped { busyEnc with turns := [.host], host := [.read 0x06] }).map (fun t => (t.host, t.reads))
      = some ([.read 0x06], []) := by decide
/-- V-E7 -/
theorem test_illegal_outranks_mismatch :
    (stepped { r4 with host := [.write 0x00 0x06] }).map (fun t => t.complete.statusWord) = some 0x31A := by decide
/-- 70_reset_and_hazards.md R138 -/
theorem test_reset_discards :
    (stepped { busyEnc with turns := [.reset false] }).map (fun t => (t.xl, t.key, t.busy, t.pending))
      = some (0, 0, false, none) := by decide
/-- 30_encoding.md R77, the `hash` line -/
theorem test_hash_expands : expandLine (.hash 5 [1] 1) =
    [.write 0x08 5, .write 0x00 0x30, .write 0x09 1, .write 0x00 0x31, .write 0x00 0x32, .read 0x0B] := by decide
/-- 20_memory.md R53 -/
theorem test_bytes_little_endian : toBytes 64 0x0102030405060708 = [8, 7, 6, 5, 4, 3, 2, 1] := by decide
/-- V-A36, V-R9, on the prime of T2 -/
theorem test_bn254_product_and_round :
    mulp bn254 (2 ^ 128) (2 ^ 128) = 6350874878119819312338956282401532410528162663560392320966563075034087161851 ∧
      rf bn254 1 3 42 = 205962976 := by decide +kernel
/-- V-F4, round 2 -/
theorem test_bn254_fifth_power :
    rf bn254 1409117972634352 3 0 =
      5555674215424865767322758156115441237982188612358074455629523202588697971875 := by decide +kernel

/-! ### States that meet the obligations' hypotheses, each clause at a boundary -/

theorem reset_meets_inv (c : Config) (h : c = t1 ∨ c = t4) : (State.resetOf c).Inv := by
  obtain rfl | rfl := h
  · exact ⟨by decide, by decide, by decide, by decide, by decide, by decide, by decide, rfl, by decide, by decide, rfl,
      by decide, by decide, trivial, by decide⟩
  · exact ⟨by decide, by decide, by decide, by decide, by decide, by decide, by decide, rfl, by decide, by decide, rfl,
      by decide, by decide, trivial, by decide⟩

theorem busyEnc_meets_inv : busyEnc.Inv :=
  ⟨by decide, by decide, by decide, by decide, by decide, by decide, by decide, rfl, by decide, by decide, rfl,
    by decide, by decide, ⟨⟨show 95 < 97 by decide, show 13 < 97 by decide, trivial, by decide⟩, by decide⟩, by decide⟩

theorem busy_meets_inv (ts : List Turn) : State.Inv { busyEnc with turns := ts } :=
  let h := busyEnc_meets_inv
  ⟨h.xl, h.xr, h.key, h.a, h.b, h.r, h.cmd, h.busy_pending, h.busy_done, h.busy_err, h.cfgerr, h.err_le, h.count,
    h.pending, h.host⟩

theorem witness_DecodeOfEncode : Instr.wellFormed (.round 65535) = true ∧ Instr.wellFormed (.fstep 0) = true ∧
    Instr.wellFormed .squeeze = true := by decide
theorem witness_DecodedValue : decode 0xFFFF0020 = .ok (.fstep 65535) := rfl
theorem witness_WorkedEncodings : r1.busy = false := rfl
theorem witness_IllegalCommands : r1.busy = false ∧ IllegalValue (2 ^ 32) ∧ IllegalValue 0x100 ∧ IllegalValue 0x06 ∧
    IllegalValue 0xFF ∧ IllegalValue 0x10001 ∧ IllegalValue 0xFFFF0032 ∧ ¬ IllegalValue 0xFFFF0020 := by
  unfold IllegalValue assignedOps
  refine ⟨?_, ?_, ?_, ?_, ?_, ?_, ?_, ?_⟩ <;> decide
theorem witness_StepRuns :
    let s := { r1 with host := [.write 0x00 0xFFFF0010], turns := [.host] }
    s.busy = false ∧ 0xFFFF0010 < 2 ^ s.cfg.dw ∧ decode 0xFFFF0010 = .ok (.round 65535) ∧ s.pending = none ∧
      decodeTableWord 32 0 = some .nop := ⟨rfl, by decide, rfl, rfl, rfl⟩
theorem witness_CompletionStep :
    { r1 with turns := [.complete] }.pending = none ∧
      ({ r1 with turns := [.complete] }.accepted 0x06 illegalOutcome).pending = some (.fail .illegalCommand 0) ∧
      { busyEnc with turns := [.complete] }.pending = some (.ok { xl := some 95, xr := some 13 } 4) ∧
      (busyEnc.turns = [] ∧ busyEnc.pending = some (.ok { xl := some 95, xr := some 13 } 4)) :=
  ⟨rfl, rfl, rfl, rfl, rfl⟩
theorem witness_HostMovesNext : HostMovesNext { r1 with host := [.write 0x0B 1] } [] ∧
    HostMovesNext { busyEnc with turns := [.host], host := [.write 0x0B 1] } [] := ⟨.inr ⟨rfl, rfl, rfl⟩, .inl rfl⟩
theorem witness_HeldTransactions : busyEnc.busy = true ∧ r1.busy = false ∧
    (∀ op ∈ [HostOp.read 0x06, .read 0x0B, .write 0x00 0, .write 0x06 (2 ^ 64 - 1), .write 0x0B 0],
      op.wellFormed t1 = true ∧ waits op = true) ∧
    ∀ op ∈ [HostOp.read 0x00, .read 0x05, .read 0x0C, .write 0x01 2, .write 0x05 0, .write 0x1F 0],
      op.wellFormed t1 = true ∧ waits op = false ∧ op ≠ .poll := by decide
theorem witness_CommandWhileBusy : busyEnc.busy = true := rfl

/-- The hypothesis of the statements of NOP, FADD, FMUL, FPOW, FRED, FEQ and SINIT, and the operands of each of their
cases: both at `P - 1`, A at `P`, and only B at `P`. An illegal value of the opcode stands beside its word. -/
theorem witness_FieldUnit : { r1 with a := 96, b := 96 }.busy = false ∧ t1.p ≤ 97 ∧ ¬ t1.p ≤ 96 ∧
    { r1 with a := 97, b := 97 }.busy = false ∧ { r1 with a := 96, b := 97 }.busy = false ∧
    0x10001 % 256 = 0x01 ∧ 0x10001 ≠ 0x01 := by decide

/-- The hypotheses of the statements of ROUND, LDC, FSTEP, PERM, ENC, DEC, ABSORB and SQUEEZE, with CFGERR 0 and 1, at the
last legal index and the first illegal one, and at operands `P - 1` and `P`. -/
theorem witness_RomReaders : r1.busy = false ∧ RomFlagTrue r1 ∧ r1.cfgerr = false ∧ r4.busy = false ∧ RomFlagTrue r4 ∧
    r4.cfgerr = true ∧ ¬ t1.nr ≤ 3 ∧ t1.nr ≤ 4 ∧ 65535 < 65536 ∧ 2 < t1.nr - 1 ∧ ¬ 3 < t1.nr - 1 ∧
    ({ r1 with xl := 96, xr := 96, key := 96, a := 96, sqzf := false }.busy = false ∧ ¬ t1.p ≤ 96) ∧
    ({ r1 with xl := 97, xr := 97, key := 97, a := 97 }.busy = false ∧ t1.p ≤ 97) ∧
    (0x110 % 256 = 0x10 ∧ 0x110 / 2 ^ 8 % 256 ≠ 0) ∧ (0x100000010 % 256 = 0x10 ∧ 0x100000010 / 2 ^ 32 ≠ 0) := by
  unfold RomFlagTrue
  decide

theorem witness_Errors : r4.busy = false ∧ IllegalValue 0x06 ∧ firstError r4 (.round 4) = some (2, 0) ∧
    firstError { r1 with a := 97 } (.round 4) = some (4, 0) ∧ firstError { r1 with a := 97 } (.round 3) = some (1, 0x09) ∧
    firstError { r1 with a := 96, key := 97 } (.round 3) = some (1, 0x08) ∧
    firstError { r1 with a := 96 } (.round 3) = none := by
  refine ⟨rfl, by unfold IllegalValue assignedOps; decide, ?_, ?_, ?_, ?_, ?_⟩ <;>
    simp [firstError, readsRom, indexOf, operandsOf, r4, r1, t4, t1, State.resetOf, Config.mismatch, Config.nc]
theorem witness_FailedPrecise : r1.busy = false ∧
    ∃ t, issueWord 0x06 r1 = .next t ∧ t.pending = some (.fail .illegalCommand 0) := ⟨rfl, _, rfl, rfl⟩
theorem witness_ConfigMismatch : r4.busy = false ∧ r4.cfgerr = true ∧ readsRom (.ldc 0) = true ∧ readsRom .fadd = false ∧
    t4.consts.length ≠ t4.nr := by decide
theorem witness_CanonicalWrites : { r1 with sqzf := false }.busy = false ∧
    ∃ t, exec .squeeze { r1 with sqzf := false } = .next t ∧ ∃ w n, t.pending = some (.ok w n) ∧ w.r = some 94 :=
  ⟨rfl, _, rfl, _, _, rfl, rfl⟩
theorem witness_AddressMap : 2 ^ 64 - 1 < 2 ^ r1.cfg.dw := by decide
theorem witness_HostRead :
    ({ r1 with turns := [.host], host := [.read 0x0B] }.busy = false) ∧
      ({ busyEnc with turns := [.host], host := [.read 0x05] }.busy = true ∧ waits (.read 0x05) = false) := by decide
theorem witness_Reserved : 0x0C ≤ (0x0C : BitVec 5).toNat ∧ 0x0C ≤ (0x1F : BitVec 5).toNat := by decide
theorem witness_RepeatedWrites : (0x1F : BitVec 5) ≠ 0 ∧ (0x01 : BitVec 5) ≠ 0 ∧
    (∃ t, hostWrite 0x1F 5 r1 = .next t) ∧ ∃ t, hostWrite 0x01 2 r1 = .next t := ⟨by decide, by decide, ⟨_, rfl⟩, _, rfl⟩
theorem witness_Id : t1.dw < 65536 := by decide
theorem witness_Bytes : 0x1FF < 2 ^ 9 ∧ 1 < (9 + 7) / 8 := by decide
theorem witness_KeyNeverReaches : (∃ t, step { pair123 with host := [.read 0x08] } = .next t) ∧
    ∃ t, step { pair123 with host := [.read 0x08], key := 96 } = .next t := ⟨⟨_, rfl⟩, _, rfl⟩
theorem witness_OnlyTheHostWrites :
    (∃ t, step { r1 with turns := [.host], host := [.write 0x08 5] } = .next t ∧ t.key ≠ r1.key) ∧
    { r1 with turns := [.host], host := [.write 0x08 5] }.turns.head? = some .host ∧
    (∃ t, step { r1 with host := [.write 0x09 97] } = .next t ∧ t.a ≠ r1.a) ∧
    ∃ t, step { r1 with host := [.write 0x0A 97] } = .next t ∧ t.b ≠ r1.b :=
  ⟨⟨_, rfl, by decide⟩, rfl, ⟨_, rfl, by decide⟩, _, rfl, by decide⟩
/-- Each clause: a read acknowledged at once, a poll with BUSY = 1, a held read, an engine step, reset. -/
theorem witness_AckAndRdata :
    (portAck { r1 with host := [.read 0x1F] } = true ∧ rdata { r1 with host := [.read 0x1F] } = some 0) ∧
    rdata { busyEnc with turns := [.host], host := [.poll] } = some 0x9 ∧
    portAck { busyEnc with turns := [.host], host := [.read 0x06] } = false ∧
    (portAck { busyEnc with turns := [.progress], host := [.read 0x01] } = false ∧
      rst { busyEnc with turns := [.progress], host := [.read 0x01] } = false) ∧
    rst { r1 with turns := [.reset true], host := [.read 0x01] } = true ∧
    ∃ t, step { r1 with turns := [.reset true], host := [.read 0x01] } = .next t :=
  ⟨by decide, by decide, by decide, by decide, rfl, _, rfl⟩
theorem witness_FlagRules : r1.busy = false ∧ r1.sqzf = true ∧ IllegalValue 0x33 ∧
    (after .squeeze r1).map State.err = some 0 ∧ (after .feq r1).map State.err = some 0 ∧
    (after .squeeze r4).map State.err = some 2 := by
  unfold IllegalValue assignedOps
  decide
theorem witness_Busy : (∃ t, step { r1 with host := [.write 0x00 0x22] } = .next t ∧ t.busy = true) ∧
    (∃ t, step busyEnc = .next t ∧ t.busy = false) ∧
    ∃ t, step { busyEnc with turns := [.reset true] } = .next t ∧ t.busy = false :=
  ⟨⟨_, rfl, rfl⟩, ⟨_, rfl, rfl⟩, _, rfl, rfl⟩
theorem witness_Done : (∃ t, step busyEnc = .next t ∧ t.done = true) ∧
    (∃ t, step { r1 with done := true, host := [.write 0x01 2] } = .next t ∧ t.done = false) ∧
    (∃ t, step { r1 with done := true, host := [.write 0x00 0] } = .next t ∧ t.done = false) ∧
    (∃ t, step { r1 with done := true, turns := [.reset false] } = .next t ∧ t.done = false) ∧ 2 / 2 % 2 = 1 :=
  ⟨⟨_, rfl, rfl⟩, ⟨_, rfl, rfl⟩, ⟨_, rfl, rfl⟩, ⟨_, rfl, rfl⟩, rfl⟩
theorem witness_Interrupt : r1.busy = false ∧ 2 < 2 ^ r1.cfg.dw ∧ 2 / 2 % 2 = 1 ∧
    busyEnc.pending = some (.ok { xl := some 95, xr := some 13 } 4) := by decide
theorem witness_ConfigurationPermanent : (∃ t, step r4 = .next t) ∧ r4.cfgerr = r4.cfg.mismatch := ⟨⟨_, rfl⟩, rfl⟩
theorem witness_BusyPeriod :
    let s := { busyEnc with turns := [.progress] }
    s.Inv ∧ s.busy = true ∧ (∃ t, step s = .next t ∧ t.busy = true ∧ t.roundctr = 1) ∧ s.turns.head? = some .progress :=
  ⟨busy_meets_inv _, rfl, ⟨_, rfl, rfl, by decide⟩, rfl⟩
theorem witness_ProgressValues : busyEnc.pending = some (.ok { xl := some 95, xr := some 13 } 4) ∧
    busyEnc.roundctr.toNat ≤ 4 ∧ 4 ≤ finalCount (.ok { xl := some 95, xr := some 13 } 4) ∧
    finalCount (.ok { xl := some 95, xr := some 13 } 4) < 65536 := by decide
theorem witness_ResetTurn :
    let s := { busyEnc with turns := [.reset false, .host], host := [.write 0x00 0x21] }
    s.turns = .reset false :: [.host] ∧ s.host = .write 0x00 0x21 :: [] ∧ 0x21 < 2 ^ s.cfg.dw ∧ decode 0x21 = .ok .perm :=
  ⟨rfl, rfl, by decide, rfl⟩
theorem witness_ResetMismatch : t4.consts.length ≠ t4.nr ∧ ¬ t1.consts.length ≠ t1.nr := by decide
theorem witness_EveryStep : r1.Inv ∧ (∃ t, step r1 = .next t) ∧ State.Inv { busyEnc with turns := [.complete] } ∧
    ∃ t, step { busyEnc with turns := [.complete] } = .next t :=
  ⟨reset_meets_inv t1 (.inl rfl), ⟨_, rfl⟩, busy_meets_inv _, _, rfl⟩
theorem witness_NoStepStops : r4.Inv := reset_meets_inv t4 (.inr rfl)
theorem witness_PendingEnds :
    State.Inv { busyEnc with turns := [.host, .progress] } ∧ { busyEnc with turns := [.host, .progress] }.busy = true :=
  ⟨busy_meets_inv _, rfl⟩
theorem witness_Permutation : 96 < t1.p ∧ 0 < t1.p ∧ 3 < t1.consts.length := by decide
theorem witness_CipherRoundTrip :
    let s := { r1 with xl := 96, xr := 96, key := 96 }
    s.busy = false ∧ s.cfgerr = false ∧ s.xl < s.cfg.p ∧ s.xr < s.cfg.p ∧ s.key < s.cfg.p ∧ RomFlagTrue s := by
  unfold RomFlagTrue
  decide
theorem witness_OneAbsorb :
    let s := { r1 with key := 96, a := 96 }
    s.busy = false ∧ s.cfgerr = false ∧ s.xl = 0 ∧ s.xr = 0 ∧ s.key < s.cfg.p ∧ s.a < s.cfg.p := by decide

end Sys2Proof.Tests
end

section
/-! SUPPORT. What every command's outcome is, what a CMD write does to an idle block, and everything a step can do. -/

namespace Sys2Proof.Machine

open Sys2Proof.Claims

/-! ### The outcome of a command (40_command_execution.md R80 to R82) -/

/-- The registers a command checks, in check order (30_encoding.md R74). -/
def checkedRegs : Instr → List FieldReg
  | .fadd | .fmul | .feq => [.a, .b]
  | .fpow => [.a]
  | .round _ => [.a, .key]
  | .fstep _ | .perm | .enc | .dec | .squeeze => [.xl, .xr, .key]
  | .absorb => [.xl, .xr, .key, .a]
  | .nop | .fred | .ldc _ | .sinit => []

/-- The outcome of a command none of whose checks fails. -/
def successOf (s : State) : Instr → CmdOutcome
  | .nop => .ok {} 0
  | .fadd => .ok { r := some (addp s.cfg.p s.a s.b) } 0
  | .fmul => .ok { r := some (mulp s.cfg.p s.a s.b) } 0
  | .fpow => .ok { r := some (powp s.cfg.p s.a s.b) } 0
  | .fred => .ok { r := some (s.a % s.cfg.p) } 0
  | .feq => .ok { r := some (s.a == s.b).toNat, eq := some (s.a == s.b) } 0
  | .round imm => .ok { r := some (rf s.cfg.p s.a s.key (s.cfg.roundConst imm)) } 0
  | .ldc imm => .ok { r := some (s.cfg.roundConst imm) } 0
  | .fstep imm =>
    let lr := feistelRound s.cfg s.key imm (s.xl, s.xr)
    .ok { xl := some lr.1, xr := some lr.2 } 1
  | .perm | .enc =>
    let lr := permute s.cfg s.xl s.xr s.key
    .ok { xl := some lr.1, xr := some lr.2 } s.cfg.nr
  | .dec =>
    let lr := unpermute s.cfg s.xl s.xr s.key
    .ok { xl := some lr.1, xr := some lr.2 } s.cfg.nr
  | .sinit => .ok { xl := some 0, xr := some 0, sqzf := some true } 0
  | .absorb =>
    let lr := permute s.cfg (addp s.cfg.p s.xl s.a) s.xr s.key
    .ok { xl := some lr.1, xr := some lr.2, sqzf := some true } s.cfg.nr
  | .squeeze =>
    let lr := permute s.cfg s.xl s.xr s.key
    if s.sqzf then .ok { r := some s.xl, sqzf := some false } 0
    else .ok { xl := some lr.1, xr := some lr.2, r := some lr.1, sqzf := some false } s.cfg.nr

/-- The index check, for a command that has a round index. -/
def indexChecked (i : Instr) (s : State) (o : CmdOutcome) : CmdOutcome :=
  match indexOf i with
  | some imm => indexed s imm o
  | none => o

/-- The CFGERR check, for a command that reads the ROM. -/
def romChecked (i : Instr) (s : State) (o : CmdOutcome) : CmdOutcome :=
  if readsRom i then romReader s o else o

/-- The outcome of any command: CFGERR, the round index and the operands are checked, in this order. -/
def commandOutcome (i : Instr) (s : State) : CmdOutcome :=
  romChecked i s (indexChecked i s (checked s (checkedRegs i) (successOf s i)))

/-- Every command presents its own word with `commandOutcome`. -/
theorem exec_eq_issue (i : Instr) (s : State) : exec i s = issue i (commandOutcome i s) s := by
  cases i <;> rfl

theorem exec_idle {s : State} (i : Instr) (hb : s.busy = false) :
    exec i s = .next (s.accepted (encode i) (commandOutcome i s)) :=
  (exec_eq_issue i s).trans (issue_idle i _ hb)

theorem indexChecked_cases (i : Instr) (s : State) (o : CmdOutcome) :
    indexChecked i s o = o ∨ ∃ code arg, indexChecked i s o = .fail code arg := by
  unfold indexChecked
  cases indexOf i with
  | none => exact .inl rfl
  | some imm =>
    by_cases h : imm < s.cfg.nr
    · exact .inl (indexed_ok o h)
    · exact .inr ⟨_, _, indexed_fail o (Nat.not_lt.mp h)⟩

theorem romChecked_cases (i : Instr) (s : State) (o : CmdOutcome) :
    romChecked i s o = o ∨ ∃ code arg, romChecked i s o = .fail code arg := by
  unfold romChecked
  cases readsRom i with
  | false => exact .inl rfl
  | true =>
    cases h : s.cfgerr with
    | false => exact .inl (romReader_ok o h)
    | true => exact .inr ⟨_, _, romReader_fail o h⟩

/-- A command fails, or every operand it checks is canonical and it has its success outcome. -/
theorem commandOutcome_cases (i : Instr) (s : State) :
    (∃ code arg, commandOutcome i s = .fail code arg) ∨
      (commandOutcome i s = successOf s i ∧ ∀ f ∈ checkedRegs i, s.fieldVal f < s.cfg.p) := by
  unfold commandOutcome
  obtain hrom | hfail := romChecked_cases i s (indexChecked i s (checked s (checkedRegs i) (successOf s i)))
  · rw [hrom]
    obtain hidx | hfail := indexChecked_cases i s (checked s (checkedRegs i) (successOf s i))
    · rw [hidx]
      obtain hok | ⟨f, -, -, hfail⟩ := checked_cases s (checkedRegs i) (successOf s i)
      · exact .inr hok
      · exact .inl ⟨_, _, hfail⟩
    · exact .inl hfail
  · exact .inl hfail

theorem outcomeErr_fail_ne_zero (code : ErrCode) (arg : BitVec 5) : outcomeErr (.fail code arg) ≠ 0 := by
  cases code <;> simp [outcomeErr, errBits]

theorem successOf_squeeze_first {s : State} (h : s.sqzf = true) :
    successOf s .squeeze = .ok { r := some s.xl, sqzf := some false } 0 := if_pos h

theorem successOf_squeeze_later {s : State} (h : s.sqzf = false) :
    successOf s .squeeze =
      .ok { xl := some (permute s.cfg s.xl s.xr s.key).1, xr := some (permute s.cfg s.xl s.xr s.key).2,
            r := some (permute s.cfg s.xl s.xr s.key).1, sqzf := some false } s.cfg.nr :=
  if_neg (by simp [h])

@[simp] theorem outcomeErr_successOf (i : Instr) (s : State) : outcomeErr (successOf s i) = 0 := by
  cases i with
  | squeeze =>
    cases h : s.sqzf with
    | true => rw [successOf_squeeze_first h]; rfl
    | false => rw [successOf_squeeze_later h]; rfl
  | _ => rfl

/-- FEQ is the only command with a write of EQ (10_state.md R35). -/
theorem successOf_eq (i : Instr) (s : State) :
    (outcomeWrites (successOf s i)).eq = if i = .feq then some (s.a == s.b) else none := by
  cases i with
  | squeeze =>
    cases h : s.sqzf with
    | true => rw [successOf_squeeze_first h]; rfl
    | false => rw [successOf_squeeze_later h]; rfl
  | _ => rfl

/-- SINIT, ABSORB and SQUEEZE are the only commands with a write of SQZF (10_state.md R36). -/
theorem successOf_sqzf (i : Instr) (s : State) :
    (outcomeWrites (successOf s i)).sqzf =
      if i = .sinit ∨ i = .absorb then some true else if i = .squeeze then some false else none := by
  cases i with
  | squeeze =>
    cases h : s.sqzf with
    | true => rw [successOf_squeeze_first h]; rfl
    | false => rw [successOf_squeeze_later h]; rfl
  | _ => rfl

/-- A command that ends with ERR 0 has its success outcome. -/
theorem commandOutcome_of_err_eq_zero {i : Instr} {s : State} (h : outcomeErr (commandOutcome i s) = 0) :
    commandOutcome i s = successOf s i := by
  obtain ⟨code, arg, hfail⟩ | ⟨hok, -⟩ := commandOutcome_cases i s
  · rw [hfail] at h
    exact absurd h (outcomeErr_fail_ne_zero code arg)
  · exact hok

/-- A command that ends with another ERR writes nothing. -/
theorem outcomeWrites_of_err_ne_zero {i : Instr} {s : State} (h : outcomeErr (commandOutcome i s) ≠ 0) :
    outcomeWrites (commandOutcome i s) = {} := by
  obtain ⟨code, arg, hfail⟩ | ⟨hok, -⟩ := commandOutcome_cases i s
  · rw [hfail]
    rfl
  · rw [hok] at h
    exact absurd (outcomeErr_successOf i s) h

/-! ### Lawful outcomes -/

/-- A register with an optional canonical write keeps any bound that no field element passes. -/
theorem canonicalWrite_getD_lt {p m x : Nat} {w : Option Nat} (hw : canonicalWrite p w) (hp : p < m) (hx : x < m) :
    w.getD x < m := by
  cases w with
  | none => exact hx
  | some v => exact Nat.lt_trans hw hp

theorem canonicalWrite_getD {p : Nat} {w : Option Nat} (hw : canonicalWrite p w) (x : Nat) :
    w.getD x = x ∨ w.getD x < p := by
  cases w with
  | none => exact .inl rfl
  | some v => exact .inr hw

theorem canonicalWrite_mem {p : Nat} {w : Option Nat} (hw : canonicalWrite p w) : ∀ v ∈ w, v < p := by
  rintro v rfl
  exact hw

theorem CmdOutcome.Lawful.fail (c : Config) (code : ErrCode) (arg : BitVec 5) : CmdOutcome.Lawful c (.fail code arg) :=
  ⟨trivial, trivial, trivial, Nat.zero_le _⟩

/-- The outcome that writes a canonical pair is lawful. -/
theorem CmdOutcome.Lawful.pair {c : Config} {lr : Nat × Nat} {q : Option Bool} {n : Nat} (h : CanonPair c.p lr)
    (hn : n ≤ c.nr) : CmdOutcome.Lawful c (.ok { xl := some lr.1, xr := some lr.2, sqzf := q } n) :=
  ⟨h.1, h.2, trivial, hn⟩

/-- The outcome that writes a canonical value to R is lawful. -/
theorem CmdOutcome.Lawful.result {c : Config} {v : Nat} {e : Option Bool} (h : v < c.p) :
    Lawful c (.ok { r := some v, eq := e } 0) :=
  ⟨trivial, trivial, h, Nat.zero_le _⟩

/-- On canonical operands every command writes canonical values (41_field_arith.md R85). -/
theorem successOf_lawful {i : Instr} {s : State} (h : ∀ f ∈ checkedRegs i, s.fieldVal f < s.cfg.p) :
    (successOf s i).Lawful s.cfg := by
  have hp := Config.p_pos s.cfg
  have hp2 := s.cfg.wf.prime.two_le
  cases i with
  | nop => exact ⟨trivial, trivial, trivial, Nat.zero_le _⟩
  | fadd => exact .result (addp_lt hp _ _)
  | fmul => exact .result (mulp_lt hp _ _)
  | fpow => exact .result (powp_lt hp _ _)
  | fred => exact .result (Nat.mod_lt _ hp)
  | feq => exact .result (Nat.lt_of_lt_of_le (Bool.toNat_lt _) hp2)
  | round imm => exact .result (rf_lt hp _ _ _)
  | ldc imm => exact .result (roundConst_lt _ _)
  | fstep imm =>
    exact .pair (feistelRound_canon ⟨h .xl (.head _), h .xr (.tail _ (.head _))⟩) s.cfg.wf.nr_pos
  | perm | enc => exact .pair (permute_canon (h .xl (.head _)) (h .xr (.tail _ (.head _)))) (Nat.le_refl _)
  | dec => exact .pair (unpermute_canon (h .xl (.head _)) (h .xr (.tail _ (.head _)))) (Nat.le_refl _)
  | sinit => exact .pair (lr := (0, 0)) ⟨hp, hp⟩ (Nat.zero_le _)
  | absorb => exact .pair (permute_canon (addp_lt hp _ _) (h .xr (.tail _ (.head _)))) (Nat.le_refl _)
  | squeeze =>
    have hxl : s.xl < s.cfg.p := h .xl (.head _)
    have hpair : CanonPair s.cfg.p (permute s.cfg s.xl s.xr s.key) := permute_canon hxl (h .xr (.tail _ (.head _)))
    cases hq : s.sqzf with
    | true => rw [successOf_squeeze_first hq]; exact ⟨trivial, trivial, hxl, Nat.zero_le _⟩
    | false => rw [successOf_squeeze_later hq]; exact ⟨hpair.1, hpair.2, hpair.1, Nat.le_refl _⟩

theorem commandOutcome_lawful (i : Instr) (s : State) : (commandOutcome i s).Lawful s.cfg := by
  obtain ⟨code, arg, hfail⟩ | ⟨hok, hcanon⟩ := commandOutcome_cases i s
  · rw [hfail]
    exact .fail _ _ _
  · rw [hok]
    exact successOf_lawful hcanon

/-! ### A CMD write to an idle block -/

/-- A decoded opcode and immediate are those of the command's own word (30_encoding.md R69). -/
theorem encode_of_decodeOp {op imm : Nat} {i : Instr} (h : decodeOp op imm = .ok i) : encode i = formatC imm op := by
  have hplain : ∀ {j : Instr}, plainCommand imm j = .ok i → imm = 0 ∧ j = i := by
    intro j hj
    unfold plainCommand at hj
    split at hj
    · exact ⟨‹_›, Except.ok.inj hj⟩
    · cases hj
  unfold decodeOp at h
  split at h
  case h_7 | h_8 | h_9 => cases h; rfl
  case h_16 => cases h
  all_goals
    obtain ⟨rfl, rfl⟩ := hplain h
    rfl

/-- A value decodes only to the command whose word it is (30_encoding.md R70). -/
theorem encode_of_decode {v : Nat} {i : Instr} (h : decode v = .ok i) : encode i = v := by
  unfold decode at h
  split_ifs at h with hupper hrsv
  rw [encode_of_decodeOp h]
  simp only [cmdUpper, cmdRsv, cmdImm, cmdOp, formatC, slice] at *
  omega

/-- No command's own word is an illegal value (60_exceptions.md R120). -/
theorem not_illegalValue_encode (i : Instr) : ¬ IllegalValue (encode i) := by
  unfold IllegalValue assignedOps
  cases i with
  | round imm | ldc imm | fstep imm =>
    simp only [encode, formatC, List.mem_cons]
    omega
  | _ => decide

theorem decode_illegal {v : Nat} (h : IllegalValue v) : ∃ e, decode v = .error e := by
  cases hd : decode v with
  | error e => exact ⟨e, rfl⟩
  | ok i => exact absurd (encode_of_decode hd ▸ h) (not_illegalValue_encode i)

theorem issueWord_illegal {v : Nat} {s : State} (hb : s.busy = false) (h : IllegalValue v) :
    issueWord v s = .next (s.accepted v illegalOutcome) := by
  obtain ⟨e, he⟩ := decode_illegal h
  unfold issueWord
  rw [he]
  exact issueValue_idle v _ hb

/-- An idle block accepts every CMD value, with a lawful outcome (40_command_execution.md R79). -/
theorem issueWord_idle {s : State} (v : Nat) (hb : s.busy = false) :
    ∃ o, o.Lawful s.cfg ∧ issueWord v s = .next (s.accepted v o) := by
  obtain ⟨hbusy, -⟩ | ⟨-, i, hd, h⟩ | ⟨-, -, h⟩ := issueWord_cases v s
  · simp [hb] at hbusy
  · rw [h, exec_idle i hb, encode_of_decode hd]
    exact ⟨_, commandOutcome_lawful i s, rfl⟩
  · exact ⟨_, .fail _ _ _, h⟩

/-! ### HostWrites that the port carries -/

theorem slice_one (v : Nat) : slice v 1 1 = v / 2 % 2 := rfl

theorem slice_zero (v : Nat) : slice v 0 0 = v % 2 := by simp [slice]

theorem hostWrite_status {s : State} {v : Nat} (h : v < 2 ^ s.cfg.dw) (hbit : v / 2 % 2 = 1) :
    hostWrite 0x01 v s = .next { s with done := false } := by
  have hslice : slice v 1 1 = 1 := (slice_one v).trans hbit
  rw [hostWrite, if_pos ((carries_iff _ _).mpr h)]
  exact congrArg Host.Outcome.next (if_pos hslice)

theorem hostWrite_ctrl {s : State} {v : Nat} (h : v < 2 ^ s.cfg.dw) :
    hostWrite 0x02 v s = .next { s with ie := slice v 0 0 == 1 } := by
  rw [hostWrite, if_pos ((carries_iff _ _).mpr h)]
  rfl

/-- On the host's move an idle block takes an outstanding CMD write. -/
theorem step_cmd_write {s : State} {v : Nat} {rest : List HostOp} {ts : List Turn}
    (hturn : s.turns = .host :: ts ∨ s.turns = [] ∧ ts = [] ∧ s.pending = none)
    (hhost : s.host = .write 0x00 v :: rest) (hb : s.busy = false) (hv : v < 2 ^ s.cfg.dw) :
    step s = issueWord v (s.withTurns ts).popHost := by
  have hheld : held (s.withTurns ts) (.write 0x00 v) = false := by simp [held, hb]
  rw [step_host hturn, hostMove_cons (s := s.withTurns ts) hhost, hheld]
  exact hostWrite_cmd ((carries_iff _ _).mpr hv)

/-! ### Everything a step can do -/

/-- The ways a step leads from `s` to another state, each with the turns `ts` it leaves in the schedule (20_memory.md
R59). A command is accepted with a lawful outcome. -/
inductive StepEffect (s : State) : State → Prop
  /-- the host waits, or has nothing to do -/
  | wait (ts : List Turn) : StepEffect s (s.withTurns ts)
  /-- a HostWrite that the register map ignores -/
  | ignore (ts : List Turn) : StepEffect s (s.withTurns ts).popHost
  /-- a HostRead -/
  | deliver (ts : List Turn) (v : Nat) : StepEffect s ((s.withTurns ts).popHost.delivered v)
  /-- a read of the polling loop that found BUSY = 1 -/
  | poll (ts : List Turn) (v : Nat) : StepEffect s ((s.withTurns ts).delivered v)
  /-- a CMD write, taken by an idle block -/
  | accept (ts : List Turn) (v : Nat) (rest : List HostOp) (o : CmdOutcome) (hhost : s.host = .write 0x00 v :: rest)
      (hidle : s.busy = false) (hv : v < 2 ^ s.cfg.dw) (ho : o.Lawful s.cfg) :
      StepEffect s ((s.withTurns ts).popHost.accepted v o)
  /-- a write of STATUS with bit 1 set -/
  | clearDone (ts : List Turn) (v : Nat) (rest : List HostOp) (hhost : s.host = .write 0x01 v :: rest)
      (hbit : v / 2 % 2 = 1) : StepEffect s { (s.withTurns ts).popHost with done := false }
  /-- a write of CTRL -/
  | setIe (ts : List Turn) (b : Bool) : StepEffect s { (s.withTurns ts).popHost with ie := b }
  /-- a write of a field register, which waits while BUSY = 1 -/
  | setField (ts : List Turn) (f : FieldReg) (v : Nat) (rest : List HostOp)
      (hhost : s.host = .write (fieldAddr f) v :: rest) (hidle : s.busy = false) (hv : v < 2 ^ s.cfg.dw) :
      StepEffect s ((s.withTurns ts).popHost.setField f v)
  | progress (ts : List Turn) : StepEffect s (s.withTurns ts).progressed
  | complete (ts : List Turn) : StepEffect s (s.withTurns ts).complete
  | reset (ts : List Turn) (drop : Bool) (hturn : s.turns = .reset drop :: ts) :
      StepEffect s ((s.withTurns ts).resetCycle drop)

/-- The host's turn has one of the effects. -/
theorem hostMove_effect {s t : State} {ts : List Turn} (h : hostMove (s.withTurns ts) = .next t) : StepEffect s t := by
  obtain rfl | rfl | ⟨v, u, rfl | rfl, rfl⟩ | ⟨v, rest, hhost, hidle, hv, hw⟩ | ⟨v, rest, hhost, hbit, rfl⟩ |
    ⟨v, rest, -, rfl⟩ | ⟨f, v, rest, hhost, hidle, hv, rfl⟩ := hostMove_cases h
  · exact .wait ts
  · exact .ignore ts
  · exact .poll ts v
  · exact .deliver ts v
  · obtain ⟨o, ho, hacc⟩ := issueWord_idle (s := (s.withTurns ts).popHost) v hidle
    cases hw.symm.trans hacc
    exact .accept ts v rest o hhost hidle ((carries_iff _ _).mp hv) ho
  · exact .clearDone ts v rest hhost (slice_one v ▸ hbit)
  · exact .setIe ts _
  · exact .setField ts f v rest hhost hidle ((carries_iff _ _).mp hv)

/-- A step that answers a next state has one of the effects. -/
theorem step_effect {s t : State} (h : step s = .next t) : StepEffect s t := by
  cases hturns : s.turns with
  | nil =>
    rw [step_nil hturns, defaultMove] at h
    split at h
    · cases h; exact .complete s.turns
    · exact hostMove_effect (ts := s.turns) h
  | cons turn ts =>
    rw [step_cons hturns] at h
    cases turn with
    | host => exact hostMove_effect h
    | progress => cases h; exact .progress ts
    | complete => cases h; exact .complete ts
    | reset drop => cases h; exact .reset ts drop hturns

end Sys2Proof.Machine
end

section
/-! SUPPORT. Each effect of a step keeps the invariant. -/

namespace Sys2Proof.Machine

theorem State.Inv.withTurns {s : State} (h : s.Inv) (ts : List Turn) : (s.withTurns ts).Inv := { h with }

theorem State.Inv.popHost {s : State} (h : s.Inv) : s.popHost.Inv :=
  { h with host := fun op hop => h.host op (List.mem_of_mem_tail hop) }

theorem State.Inv.delivered {s : State} (h : s.Inv) (v : Nat) : (s.delivered v).Inv := { h with }

theorem State.Inv.clearDone {s : State} (h : s.Inv) : State.Inv { s with done := false } :=
  { h with busy_done := fun _ => rfl }

theorem State.Inv.setIe {s : State} (h : s.Inv) (b : Bool) : State.Inv { s with ie := b } := { h with }

theorem State.Inv.setField {s : State} (h : s.Inv) (f : FieldReg) {v : Nat} (hv : v < 2 ^ s.cfg.dw) :
    (s.setField f v).Inv := by
  cases f with
  | xl => exact { h with xl := hv }
  | xr => exact { h with xr := hv }
  | key => exact { h with key := hv }
  | a => exact { h with a := hv }
  | b => exact { h with b := hv }
  | r => exact { h with r := hv }

theorem State.Inv.accepted {s : State} (h : s.Inv) {v : Nat} {o : CmdOutcome} (hv : v < 2 ^ s.cfg.dw)
    (ho : o.Lawful s.cfg) : (s.accepted v o).Inv :=
  { h with
    cmd := hv
    busy_pending := rfl
    busy_done := fun _ => rfl
    busy_err := fun _ => ⟨rfl, rfl⟩
    err_le := Nat.zero_le _
    count := Nat.zero_le _
    pending := ⟨ho, Nat.zero_le _⟩ }

theorem outcomeErr_le (o : CmdOutcome) : (outcomeErr o).toNat ≤ 4 := by
  cases o with
  | fail code arg => cases code <;> simp [outcomeErr, errBits]
  | ok w n => simp [outcomeErr]

theorem State.Inv.finish {s : State} (h : s.Inv) {o : CmdOutcome} (ho : o.Lawful s.cfg) : (s.finish o).Inv :=
  { h with
    xl := canonicalWrite_getD_lt ho.xl (Config.p_lt_word _) h.xl
    xr := canonicalWrite_getD_lt ho.xr (Config.p_lt_word _) h.xr
    r := canonicalWrite_getD_lt ho.r (Config.p_lt_word _) h.r
    busy_pending := rfl
    busy_done := nofun
    busy_err := nofun
    err_le := outcomeErr_le o
    count := by
      rw [State.finish_roundctr, BitVec.toNat_ofNat]
      exact (Nat.mod_le _ _).trans ho.count
    pending := trivial }

theorem State.Inv.pending_some {s : State} (h : s.Inv) {o : CmdOutcome} (ho : s.pending = some o) :
    o.Lawful s.cfg ∧ s.roundctr.toNat ≤ finalCount o := by
  have hp := h.pending
  rwa [PendingLawful, ho] at hp

theorem State.Inv.complete {s : State} (h : s.Inv) : s.complete.Inv := by
  cases ho : s.pending with
  | none => rwa [State.complete_none ho]
  | some o =>
    rw [State.complete_some ho]
    exact h.finish (h.pending_some ho).1

/-- ROUNDCTR does not wrap while it counts below a lawful final count. -/
theorem roundctr_succ_toNat {x : BitVec 16} {n : Nat} (hx : x.toNat < n) (hn : n < 65536) :
    (x + 1).toNat = x.toNat + 1 := by
  bv_omega

theorem State.Inv.progressed {s : State} (h : s.Inv) : s.progressed.Inv := by
  obtain hsame | ⟨o, ho, hlt, hsucc⟩ := s.progressed_cases
  · rwa [hsame]
  · obtain ⟨hlaw, -⟩ := h.pending_some ho
    have hcount : (s.roundctr + 1).toNat = s.roundctr.toNat + 1 :=
      roundctr_succ_toNat hlt (Nat.lt_succ_of_le (hlaw.count.trans s.cfg.wf.nr_le))
    rw [hsucc]
    exact { h with
      count := by have := hlaw.count; simp only [hcount]; omega
      pending := by simp only [PendingLawful, ho, hcount]; exact ⟨hlaw, hlt⟩ }

theorem State.resetOf_inv (c : Config) : (State.resetOf c).Inv where
  xl := Nat.two_pow_pos _
  xr := Nat.two_pow_pos _
  key := Nat.two_pow_pos _
  a := Nat.two_pow_pos _
  b := Nat.two_pow_pos _
  r := Nat.two_pow_pos _
  cmd := Nat.two_pow_pos _
  busy_pending := rfl
  busy_done := nofun
  busy_err := nofun
  cfgerr := rfl
  err_le := by simp only [State.resetOf]; split <;> decide
  count := Nat.zero_le _
  pending := trivial
  host := nofun

theorem State.Inv.resetCycle {s : State} (h : s.Inv) (drop : Bool) : (s.resetCycle drop).Inv :=
  { State.resetOf_inv s.cfg with
    host := by
      cases drop with
      | false => exact h.host
      | true => exact h.popHost.host }

theorem StepEffect.inv {s t : State} (h : s.Inv) (he : StepEffect s t) : t.Inv := by
  cases he with
  | wait ts => exact h.withTurns ts
  | ignore ts => exact (h.withTurns ts).popHost
  | deliver ts v => exact (h.withTurns ts).popHost.delivered v
  | poll ts v => exact (h.withTurns ts).delivered v
  | accept ts v rest o hhost hidle hv ho => exact (h.withTurns ts).popHost.accepted hv ho
  | clearDone ts v rest hhost hbit => exact (h.withTurns ts).popHost.clearDone
  | setIe ts b => exact (h.withTurns ts).popHost.setIe b
  | setField ts f v rest hhost hidle hv => exact (h.withTurns ts).popHost.setField f hv
  | progress ts => exact (h.withTurns ts).progressed
  | complete ts => exact (h.withTurns ts).complete
  | reset ts drop hturn => exact (h.withTurns ts).resetCycle drop

end Sys2Proof.Machine
end

section
/-! SUPPORT. What a step delivers to the host, what the engine's progress turns reach, and who writes KEY, A and B. -/

namespace Sys2Proof.Machine

/-! ### The values a step delivers (70_reset_and_hazards.md R148) -/

theorem issueWord_next {v : Nat} {s t : State} (h : issueWord v s = .next t) : t = s ∨ ∃ o, t = s.accepted v o := by
  cases hb : s.busy with
  | true =>
    obtain ⟨-, hw⟩ | ⟨hidle, -⟩ | ⟨hidle, -⟩ := issueWord_cases v s
    · exact .inl (Host.Outcome.next.inj (h.symm.trans hw))
    · simp [hb] at hidle
    · simp [hb] at hidle
  | false =>
    obtain ⟨o, -, hw⟩ := issueWord_idle v hb
    exact .inr ⟨o, Host.Outcome.next.inj (h.symm.trans hw)⟩

theorem hostWrite_reads {addr : BitVec 5} {v : Nat} {s t : State} (h : hostWrite addr v s = .next t) :
    t.reads = s.reads := by
  obtain ⟨-, ⟨-, hw⟩ | ⟨-, rfl | rfl⟩ | ⟨-, rfl⟩ | ⟨f, -, rfl⟩ | rfl⟩ := hostWrite_next h
  · obtain rfl | ⟨o, rfl⟩ := issueWord_next hw <;> rfl
  · rfl
  · rfl
  · rfl
  · exact State.setField_reads s f v
  · rfl

/-- On its move the host is delivered exactly `rdata`. -/
theorem hostMove_reads {s t : State} {ts : List Turn}
    (hturn : s.turns = .host :: ts ∨ s.turns = [] ∧ ts = [] ∧ s.pending = none)
    (h : hostMove (s.withTurns ts) = .next t) : t.reads = s.reads ++ (rdata s).toList := by
  have hport := portOp_host hturn
  cases hhost : s.host with
  | nil =>
    simp only [hostMove, State.withTurns_host, hhost] at h
    cases h
    simp [rdata, hport, hhost]
  | cons op rest =>
    rw [hhost, List.head?_cons] at hport
    rw [hostMove_cons (s := s.withTurns ts) hhost] at h
    change (if held s op then _ else _) = _ at h
    cases hheld : held s op with
    | true =>
      rw [hheld] at h
      cases h
      cases op <;> simp [rdata, portAck, hport, hheld]
    | false =>
      rw [hheld] at h
      cases op with
      | read addr =>
        have hdata : rdata s = some (hostRead s addr) := by simp [rdata, portAck, hport, hheld]
        cases h
        rw [hdata]
        rfl
      | write addr v => simpa [rdata, hport] using hostWrite_reads h
      | poll =>
        have hdata : rdata s = some s.statusWord := by simp [rdata, portAck, hport, hheld]
        have hkeep : (if s.busy then s.withTurns ts else (s.withTurns ts).popHost).reads = s.reads := by
          split <;> rfl
        cases h
        rw [hdata, State.delivered_reads, State.withTurns_busy, hkeep]
        rfl

/-- Every step delivers exactly `rdata` (20_memory.md R45). -/
theorem step_reads {s t : State} (h : step s = .next t) : t.reads = s.reads ++ (rdata s).toList := by
  cases hturns : s.turns with
  | nil =>
    cases hp : s.pending with
    | none =>
      have hturn : s.turns = .host :: [] ∨ s.turns = [] ∧ ([] : List Turn) = [] ∧ s.pending = none :=
        .inr ⟨hturns, rfl, hp⟩
      exact hostMove_reads hturn (step_host hturn ▸ h)
    | some o =>
      rw [step_nil hturns, defaultMove, if_pos (by simp [hp])] at h
      cases h
      simp [rdata, portOp, hturns, hp]
  | cons turn ts =>
    rw [step_cons hturns] at h
    cases turn with
    | host => exact hostMove_reads (.inl hturns) h
    | progress | complete | reset drop =>
      cases h
      simp [rdata, portOp, hturns]

/-! ### The port and KEY (10_state.md R24) -/

theorem hostRead_withKey (s : State) (k : Nat) (addr : BitVec 5) :
    hostRead { s with key := k } addr = hostRead s addr := by
  unfold hostRead
  cases regAt addr with
  | none => rfl
  | some reg =>
    cases reg with
    | field f => cases f <;> rfl
    | _ => rfl

theorem portOp_withKey (s : State) (k : Nat) : portOp { s with key := k } = portOp s := rfl

theorem portAck_withKey (s : State) (k : Nat) : portAck { s with key := k } = portAck s := rfl

theorem rdata_withKey (s : State) (k : Nat) : rdata { s with key := k } = rdata s := by
  unfold rdata
  rw [portOp_withKey, portAck_withKey]
  cases portOp s with
  | none => rfl
  | some op =>
    cases op with
    | read addr => simp only [hostRead_withKey]
    | write addr v => rfl
    | poll => rfl

/-! ### The engine's progress (10_state.md R41) -/

theorem State.progressed_below {s : State} {o : CmdOutcome} (ho : s.pending = some o)
    (hlt : s.roundctr.toNat < finalCount o) : s.progressed = { s with roundctr := s.roundctr + 1 } := by
  simp [State.progressed, ho, hlt]

theorem step_progress {s : State} {o : CmdOutcome} (ho : s.pending = some o) (hlt : s.roundctr.toNat < finalCount o)
    (ts : List Turn) :
    step { s with turns := .progress :: ts } = .next { s with turns := ts, roundctr := s.roundctr + 1 } :=
  congrArg Host.Outcome.next (State.progressed_below (s := s.withTurns ts) ho hlt)

/-- `k` progress turns count `k` rounds, as long as the final count is not passed, and change nothing else. -/
theorem run_progress {o : CmdOutcome} (hsmall : finalCount o < 65536) (ts : List Turn) (k : Nat) :
    ∀ s : State, s.pending = some o → s.roundctr.toNat + k ≤ finalCount o →
      Host.Core.run core k { s with turns := List.replicate k .progress ++ ts } =
        .next { s with turns := ts, roundctr := BitVec.ofNat 16 (s.roundctr.toNat + k) } := by
  induction k with
  | zero =>
    intro s _ _
    simp [Host.Core.run]
  | succ k ih =>
    intro s ho hle
    have hlt : s.roundctr.toNat < finalCount o := by omega
    have hcount : (s.roundctr + 1).toNat = s.roundctr.toNat + 1 := roundctr_succ_toNat hlt hsmall
    have hrest := ih { s with roundctr := s.roundctr + 1 } ho (by simp only [hcount]; omega)
    simp only [hcount, Nat.add_assoc, Nat.add_comm 1 k] at hrest
    exact (run_step k (step_progress ho hlt _)).trans hrest

/-! ### KEY, A and B, and CFGERR (10_state.md R24 to R26, R37) -/

/-- A field register that no command writes changes only by the host's own write to it (10_state.md R24, R25, R26). -/
theorem fieldVal_changed_by_host {s t : State} {f : FieldReg} (hf : f ∈ [FieldReg.key, .a, .b]) (he : StepEffect s t)
    (hreset : ∀ d, s.turns.head? ≠ some (.reset d)) (hne : t.fieldVal f ≠ s.fieldVal f) :
    ∃ v rest, s.host = .write (fieldAddr f) v :: rest ∧ s.busy = false ∧ t.host = rest ∧ t.fieldVal f = v := by
  have hchanged : ¬ (t.key = s.key ∧ t.a = s.a ∧ t.b = s.b) := by
    rintro ⟨hkey, ha, hb⟩
    simp only [List.mem_cons, List.not_mem_nil, or_false] at hf
    obtain rfl | rfl | rfl := hf
    · exact hne hkey
    · exact hne ha
    · exact hne hb
  cases he with
  | setField ts g v rest hhost hidle hv =>
    by_cases hg : g = f
    · subst hg
      refine ⟨v, rest, hhost, hidle, by simp [hhost], ?_⟩
      cases g <;> rfl
    · refine absurd ?_ hne
      cases f <;> simp [State.fieldVal, hg]
  | reset ts drop hturn => simp [hturn] at hreset
  | _ => simp at hchanged

theorem mismatch_iff (c : Config) : c.mismatch = true ↔ c.consts.length ≠ c.nr := by
  simp [Config.mismatch, Config.nc]

end Sys2Proof.Machine
end

section
/-! PROOFS. The statements about the state: what every step keeps, who changes each field, reset, and the words the port
shows. -/

namespace Sys2Proof.Proofs

open Sys2Proof Sys2Proof.Machine Sys2Proof.Claims

/-! ### The invariant -/

/-- Settles O49: each of the effects a step can have keeps the invariant. -/
theorem everyStepKeepsTheInvariant : Obligations.EveryStepKeepsTheInvariant := by
  intro s t hinv hstep
  exact (step_effect hstep).inv hinv

/-- Settles O48: the reset state has every register 0, nothing pending and an idle host. -/
theorem resetMeetsTheInvariant : Obligations.ResetMeetsTheInvariant := State.resetOf_inv

/-- Settles O42: only a reset cycle writes CFGERR, and it writes the mismatch. -/
theorem configurationAndMismatchArePermanent : Obligations.ConfigurationAndMismatchArePermanent := by
  intro s t hstep
  cases step_effect hstep with
  | reset ts drop hturn => exact ⟨rfl, fun _ => rfl⟩
  | _ => simp

/-! ### What commands write -/

/-- Settles O8: every command is presented by `issue`, which a busy block holds. -/
theorem commandPresentedWhileBusyWaits : Obligations.CommandPresentedWhileBusyWaits := by
  intro i s hb
  exact (exec_eq_issue i s).trans (issue_busy i _ hb)

/-- Settles O27: every outcome of a command is lawful. -/
theorem commandsWriteOnlyCanonicalValues : Obligations.CommandsWriteOnlyCanonicalValues := by
  intro i s hb
  have hlaw := commandOutcome_lawful i s
  refine ⟨_, exec_idle i hb, canonicalWrite_getD hlaw.r _, canonicalWrite_getD hlaw.xl _,
    canonicalWrite_getD hlaw.xr _, ?_⟩
  intro w n hpending
  have hok : commandOutcome i s = .ok w n := Option.some.inj hpending
  rw [hok] at hlaw
  exact ⟨canonicalWrite_mem hlaw.r, canonicalWrite_mem hlaw.xl, canonicalWrite_mem hlaw.xr⟩

/-- Settles O37, by whether the command ends with ERR 0. -/
theorem onlySuccessfulFeqWritesEq : Obligations.OnlySuccessfulFeqWritesEq := by
  refine ⟨fun c => rfl, fun i s hb => ⟨_, exec_idle i hb, rfl, ?_, ?_⟩⟩
  · rw [State.complete_accepted, State.finish_eq, State.finish_err, State.accepted_eq]
    by_cases herr : outcomeErr (commandOutcome i s) = 0
    · rw [commandOutcome_of_err_eq_zero herr, successOf_eq]
      by_cases hfeq : i = .feq <;> simp [hfeq, beq_eq_decide]
    · rw [outcomeWrites_of_err_ne_zero herr, if_neg fun h => herr h.2]
      rfl
  · exact fun v hv => ⟨_, issueWord_illegal hb hv, rfl, rfl⟩

/-- Settles O38, by whether the command ends with ERR 0. -/
theorem squeezeFirstFlagRule : Obligations.SqueezeFirstFlagRule := by
  refine ⟨fun c => rfl, fun i s hb => ⟨_, exec_idle i hb, rfl, ?_, ?_, ?_, ?_⟩⟩
  · intro herr
    simp [outcomeWrites_of_err_ne_zero herr]
  · intro herr
    rw [State.complete_accepted, State.finish_sqzf, commandOutcome_of_err_eq_zero herr, successOf_sqzf]
    split_ifs <;> rfl
  · rintro herr rfl hq
    simp [commandOutcome_of_err_eq_zero herr, successOf_squeeze_first hq, outcomeWrites]
  · exact fun v hv => ⟨_, issueWord_illegal hb hv, rfl, rfl⟩

/-! ### Who changes each field -/

/-- Settles O35: a step delivers `rdata`, which does not depend on KEY. -/
theorem keyNeverReachesThePort : Obligations.KeyNeverReachesThePort := by
  refine fun s k => ⟨hostRead_withKey s k, rfl, fun t t' hstep hstep' => ?_⟩
  rw [step_reads hstep, step_reads hstep', rdata_withKey]

/-- Settles O36: one argument for the three registers that no command writes. -/
theorem onlyTheHostWritesKeyAndOperands : Obligations.OnlyTheHostWritesKeyAndOperands := by
  intro s t hstep hreset
  have he := step_effect hstep
  exact ⟨fieldVal_changed_by_host (f := .key) (by simp) he hreset,
    fieldVal_changed_by_host (f := .a) (by simp) he hreset, fieldVal_changed_by_host (f := .b) (by simp) he hreset⟩

/-- Settles O39, effect by effect: those left to the last case leave BUSY as it is. -/
theorem busyChangesOnlyAtAcceptanceCompletionAndReset :
    Obligations.BusyChangesOnlyAtAcceptanceCompletionAndReset := by
  refine ⟨fun v s hb => ?_, fun s d => rfl, fun s t hstep => ?_⟩
  · obtain ⟨o, -, haccept⟩ := issueWord_idle v hb
    exact ⟨_, haccept, rfl, rfl⟩
  · cases step_effect hstep with
    | accept ts v rest o hhost hidle hv ho =>
      exact ⟨fun _ _ => ⟨v, rest, hhost, by simp [hhost], rfl, o, rfl⟩, by simp⟩
    | reset ts drop hturn => exact ⟨by simp [State.resetOf], fun _ _ => .inl ⟨drop, by simp [hturn]⟩⟩
    | complete ts =>
      cases ho : s.pending with
      | none => simp +contextual [State.complete_none (s := s.withTurns ts) ho]
      | some o =>
        rw [State.complete_some (s := s.withTurns ts) ho]
        exact ⟨by simp, fun _ _ => .inr ⟨o, rfl, rfl, rfl, rfl⟩⟩
    | _ => simp +contextual

/-- Settles O40, effect by effect: those left to the last case leave DONE as it is. -/
theorem doneChangesOnlyAsTheSpecSays : Obligations.DoneChangesOnlyAsTheSpecSays := by
  refine ⟨fun v s hb => ?_, fun s v hv hbit => ⟨_, hostWrite_status hv hbit, rfl⟩, fun s d => rfl, fun s t hstep => ?_⟩
  · obtain ⟨o, -, haccept⟩ := issueWord_idle v hb
    exact ⟨_, haccept, rfl, rfl⟩
  · cases step_effect hstep with
    | accept ts v rest o hhost hidle hv ho =>
      exact ⟨by simp, fun _ _ => .inr (.inl ⟨v, rest, hhost, hidle, rfl⟩)⟩
    | clearDone ts v rest hhost hbit => exact ⟨by simp, fun _ _ => .inr (.inr ⟨v, rest, hhost, hbit⟩)⟩
    | reset ts drop hturn => exact ⟨by simp [State.resetOf], fun _ _ => .inl ⟨drop, by simp [hturn]⟩⟩
    | complete ts =>
      cases ho : s.pending with
      | none => simp +contextual [State.complete_none (s := s.withTurns ts) ho]
      | some o =>
        rw [State.complete_some (s := s.withTurns ts) ho]
        exact ⟨fun _ _ => ⟨o, rfl, rfl, rfl⟩, by simp⟩
    | _ => simp +contextual

/-- Settles O44: under the invariant the pending outcome bounds ROUNDCTR, and only a progress turn changes it. -/
theorem roundCounterRisesToItsFinalCount : Obligations.RoundCounterRisesToItsFinalCount := by
  intro s t hinv hstep hbusy hbusy' hreset
  obtain ⟨o, ho⟩ : ∃ o, s.pending = some o := Option.isSome_iff_exists.mp (hinv.busy_pending ▸ hbusy)
  obtain ⟨hlaw, hle⟩ := hinv.pending_some ho
  cases step_effect hstep with
  | progress ts =>
    have hinv' := (hinv.withTurns ts).progressed
    refine ⟨o, ho ▸ State.progressed_pending _, ?_, (hinv'.pending_some (ho ▸ State.progressed_pending _)).2⟩
    obtain hsame | ⟨o', ho', hlt, hsucc⟩ := (s.withTurns ts).progressed_cases
    · rw [hsame]
      exact Nat.le_refl _
    · have hlaw' := ((hinv.withTurns ts).pending_some ho').1
      rw [hsucc]
      simp only [roundctr_succ_toNat hlt (Nat.lt_succ_of_le (hlaw'.count.trans s.cfg.wf.nr_le))]
      exact Nat.le_succ _
  | complete ts =>
    rw [State.complete_some (s := s.withTurns ts) ho] at hbusy'
    cases hbusy'
  | accept ts v rest o' hhost hidle hv ho' => simp [hidle] at hbusy
  | reset ts drop hturn => simp [hturn] at hreset
  | _ => simp [ho, hle]

/-- Settles O45: as many progress turns as there are rounds from ROUNDCTR to `n`. -/
theorem everyProgressValueCanBeSeen : Obligations.EveryProgressValueCanBeSeen := by
  intro s o n ho hlow hhigh hsmall
  obtain ⟨k, rfl⟩ := Nat.exists_eq_add_of_le hlow
  exact ⟨k, fun ts => run_progress hsmall ts k s ho hhigh⟩

/-! ### Reset -/

/-- Settles O46: the block is idle after the reset turn, so the host's next move presents the CMD write. -/
theorem resetDiscardsThePendingCommand : Obligations.ResetDiscardsThePendingCommand := by
  intro s d ts hturn
  refine ⟨step_cons hturn, ?_⟩
  rintro v i rest ts' rfl rfl hhost hv hd
  refine ⟨_, step_cons hturn, ?_⟩
  have hcmd := step_cmd_write (s := (s.withTurns (.host :: ts')).resetCycle false) (.inl rfl) hhost rfl hv
  rw [hcmd, issueWord, hd]
  simp only [State.popHost, State.resetCycle_host, State.withTurns_host, hhost]
  rfl

/-- Settles O47: the reset state field by field, and SINIT accepted from it. -/
theorem resetLeavesTheStatedValues : Obligations.ResetLeavesTheStatedValues := by
  refine ⟨rfl, fun c => ⟨rfl, rfl, rfl, rfl, rfl, rfl, rfl, rfl, rfl, rfl, rfl, mismatch_iff c, ?_, rfl, rfl, rfl, rfl, rfl,
    _, exec_idle .sinit rfl, rfl, rfl, rfl⟩⟩
  simp only [State.resetOf, mismatch_iff]

/-! ### The words of the port -/

/-- Settles O41, from what each of these events leaves in IE and DONE. -/
theorem interruptIsALevelOfEnableAndDone : Obligations.InterruptIsALevelOfEnableAndDone := by
  intro s
  refine ⟨by simp [State.irq], ?_, ?_, ?_, ?_, fun d => ⟨rfl, rfl, rfl⟩⟩
  · intro o ho
    rw [State.complete_some ho]
    exact ⟨Bool.and_true _, rfl⟩
  · exact fun v hv hbit => ⟨_, hostWrite_status hv hbit, Bool.and_false _⟩
  · intro v hv
    refine ⟨_, hostWrite_ctrl hv, rfl, ?_⟩
    simp [State.irq, slice_zero, beq_eq_decide]
  · intro v hv hb
    obtain ⟨o, -, haccept⟩ := issueWord_idle v hb
    exact ⟨_, (hostWrite_cmd ((carries_iff _ _).mpr hv)).trans haccept, Bool.and_false _⟩

/-- Settles O32: each field fits the bits between its position and the next one's. -/
theorem statusFieldsStandWhereTheSpecPutsThem : Obligations.StatusFieldsStandWhereTheSpecPutsThem := by
  intro s
  have hbusy := Bool.toNat_lt s.busy
  have hdone := Bool.toNat_lt s.done
  have heq := Bool.toNat_lt s.eq
  have hsqzf := Bool.toNat_lt s.sqzf
  have hcfgerr := Bool.toNat_lt s.cfgerr
  have herr := s.err.isLt
  have herrarg := s.errarg.isLt
  simp only [slice, State.statusWord]
  refine ⟨?_, ?_, ?_, ?_, ?_, ?_, ?_, ?_, ?_, ?_⟩ <;> omega

/-- Settles O33: NR, NC and the width field each fit 16 bits. -/
theorem idReportsTheConfiguration : Obligations.IdReportsTheConfiguration := by
  intro c
  have hnr : c.nr < 2 ^ 16 := Nat.lt_succ_of_le c.wf.nr_le
  have hnc : c.consts.length < 2 ^ 16 := Nat.lt_succ_of_le c.wf.nc_le
  have hwidth : idWidthField c < 2 ^ 16 := by
    unfold idWidthField
    split
    · assumption
    · exact BitVec.isLt _
  have hdw : c.dw < 65536 → idWidthField c = c.dw := fun h => if_pos h
  simp only [slice, idWord, Config.nc]
  refine ⟨?_, ?_, fun h => ?_, ?_, ?_, ?_⟩
  case refine_3 => rw [← hdw h]; omega
  all_goals omega

end Sys2Proof.Proofs
end

section
/-! SUPPORT. The address map as the register map gives it, what a transaction does to the port, and who moves in a step. -/

namespace Sys2Proof.Machine

open Sys2Proof.Claims

/-! ### The address map (20_memory.md R46, R49) -/

/-- An address is that of one of the twelve named registers, or a reserved one. -/
theorem regAt_cases (addr : BitVec 5) :
    (∃ reg, addr = regAddr reg) ∨ (0x0C ≤ addr.toNat ∧ regAt addr = none) := by
  cases h : regAt addr with
  | some reg => exact .inl ⟨reg, regAt_eq_some h⟩
  | none =>
    refine .inr ⟨?_, rfl⟩
    by_contra! hlow
    unfold regAt at h
    interval_cases addr.toNat <;> cases h

theorem regAt_reserved {addr : BitVec 5} (h : 0x0C ≤ addr.toNat) : regAt addr = none := by
  obtain ⟨reg, rfl⟩ | ⟨-, hnone⟩ := regAt_cases addr
  · cases reg with
    | field f => cases f <;> exact absurd h (by decide)
    | _ => exact absurd h (by decide)
  · exact hnone

theorem mapRead_reserved (s : State) {n : Nat} (h : 0x0C ≤ n) : mapRead s n = 0 := by
  have hne : ∀ k < 0x0C, n ≠ k := by omega
  simp [mapRead, hne]

theorem mapWrite_reserved (s : State) (v : Nat) {n : Nat} (h : 0x0C ≤ n) : mapWrite s n v = s := by
  have hne : ∀ k < 0x0C, n ≠ k := by omega
  simp [mapWrite, hne]

theorem hostRead_eq_mapRead (s : State) (addr : BitVec 5) : hostRead s addr = mapRead s addr.toNat := by
  obtain ⟨reg, rfl⟩ | ⟨hres, hnone⟩ := regAt_cases addr
  · rw [hostRead, regAt_regAddr]
    cases reg with
    | field f => cases f <;> rfl
    | _ => rfl
  · rw [hostRead, hnone, mapRead_reserved s hres]

/-- The writes of the map, register by register; a CMD write is no entry of it. -/
theorem writeReg_eq_mapWrite {reg : HostReg} (hreg : reg ≠ .cmd) (v : Nat) (s : State) :
    writeReg reg v s = .next (mapWrite s (regAddr reg).toNat v) := by
  cases reg with
  | cmd => exact absurd rfl hreg
  | ctrl =>
    have hbit : (slice v 0 0 == 1) = decide (v % 2 = 1) := by rw [slice_zero, beq_eq_decide]
    rw [writeReg, hbit]
    rfl
  | field f => cases f <;> rfl
  | _ => rfl

theorem hostWrite_eq_mapWrite {s : State} {v : Nat} (hv : v < 2 ^ s.cfg.dw) (addr : BitVec 5) :
    hostWrite addr v s = if addr.toNat = 0 then issueWord v s else .next (mapWrite s addr.toNat v) := by
  rw [hostWrite, if_pos ((carries_iff _ _).mpr hv)]
  obtain ⟨reg, rfl⟩ | ⟨hres, hnone⟩ := regAt_cases addr
  · rw [regAt_regAddr]
    by_cases hreg : reg = .cmd
    · subst hreg
      rfl
    · have haddr : (regAddr reg).toNat ≠ 0 := by
        cases reg with
        | cmd => exact absurd rfl hreg
        | field f => cases f <;> decide
        | _ => decide
      rw [if_neg haddr]
      exact writeReg_eq_mapWrite hreg v s
  · rw [hnone, if_neg (by omega), mapWrite_reserved s v hres]

/-- The hold rule (20_memory.md R51): BUSY and the map's column say together what waits. -/
theorem held_eq (s : State) (op : HostOp) : held s op = (s.busy && waits op) := by
  have hmap : ∀ (addr : BitVec 5) (v : Nat), waitsWhileBusy false (regAt addr) = waits (.read addr) ∧
      waitsWhileBusy true (regAt addr) = waits (.write addr v) := by
    intro addr v
    obtain ⟨reg, rfl⟩ | ⟨hres, hnone⟩ := regAt_cases addr
    · rw [regAt_regAddr]
      cases reg with
      | field f => cases f <;> exact ⟨rfl, rfl⟩
      | _ => exact ⟨rfl, rfl⟩
    · rw [hnone]
      simp only [waitsWhileBusy, waits, Bool.false_eq, decide_eq_false_iff_not]
      omega
  cases op with
  | read addr => rw [held, (hmap addr 0).1]
  | write addr v => rw [held, (hmap addr v).2]
  | poll => exact (Bool.and_false _).symm

theorem held_eq_false_iff {s : State} {op : HostOp} : held s op = false ↔ (s.busy = true → waits op = false) := by
  rw [held_eq, Bool.and_eq_false_imp]

/-- Writing the same value once more finds it already there (20_memory.md R55). -/
theorem mapWrite_idem (s : State) (addr : BitVec 5) (v : Nat) :
    mapWrite (mapWrite s addr.toNat v) addr.toNat v = mapWrite s addr.toNat v := by
  obtain ⟨reg, rfl⟩ | ⟨hres, -⟩ := regAt_cases addr
  · cases reg with
    | status => by_cases hbit : v / 2 % 2 = 1 <;> simp [mapWrite, regAddr, hbit]
    | field f => cases f <;> rfl
    | _ => rfl
  · rw [mapWrite_reserved s v hres, mapWrite_reserved s v hres]

@[simp] theorem mapWrite_cfg (s : State) (n v : Nat) : (mapWrite s n v).cfg = s.cfg := by
  unfold mapWrite
  split_ifs <;> rfl

@[simp] theorem mapWrite_host (s : State) (n v : Nat) : (mapWrite s n v).host = s.host := by
  unfold mapWrite
  split_ifs <;> rfl

@[simp] theorem mapWrite_busy (s : State) (n v : Nat) : (mapWrite s n v).busy = s.busy := by
  unfold mapWrite
  split_ifs <;> rfl

/-! ### What completing a transaction does (20_memory.md R45, R47, R48) -/

theorem State.popHost_of_host {s : State} {op : HostOp} {rest : List HostOp} (h : s.host = op :: rest) :
    s.popHost = { s with host := rest } := by
  rw [State.popHost, h, List.tail_cons]

theorem perform_eq_portEffect {s : State} {op : HostOp} {rest : List HostOp} (hhost : s.host = op :: rest)
    (hop : op.wellFormed s.cfg = true) : perform op s = portEffect op rest s := by
  have hpop := State.popHost_of_host hhost
  cases op with
  | read addr =>
    rw [perform, hpop, hostRead_eq_mapRead]
    rfl
  | write addr v =>
    rw [perform, hpop]
    exact hostWrite_eq_mapWrite (s := { s with host := rest }) ((carries_iff _ _).mp hop) addr
  | poll =>
    rw [perform, hpop, portEffect]
    cases hb : s.busy with
    | true => simp [State.delivered, hhost, hb]
    | false => simp [State.delivered]

theorem issueWord_answers (v : Nat) (s : State) : ∃ t, issueWord v s = .next t := by
  cases hb : s.busy with
  | false =>
    obtain ⟨o, -, hw⟩ := issueWord_idle v hb
    exact ⟨_, hw⟩
  | true =>
    obtain ⟨-, hw⟩ | ⟨hidle, -⟩ | ⟨hidle, -⟩ := issueWord_cases v s
    · exact ⟨s, hw⟩
    · simp [hb] at hidle
    · simp [hb] at hidle

theorem portEffect_answers (op : HostOp) (rest : List HostOp) (s : State) : ∃ t, portEffect op rest s = .next t := by
  cases op with
  | read addr => exact ⟨_, rfl⟩
  | write addr v =>
    rw [portEffect]
    split
    · exact issueWord_answers v _
    · exact ⟨_, rfl⟩
  | poll => exact ⟨_, rfl⟩

/-- A completed transaction is taken off the host's list, but for the polling loop while BUSY = 1. -/
theorem portEffect_host {op : HostOp} {rest : List HostOp} {s t : State} (h : portEffect op rest s = .next t) :
    t.host = if op = .poll ∧ s.busy = true then op :: rest else rest := by
  cases op with
  | read addr =>
    cases h
    simp
  | write addr v =>
    rw [portEffect] at h
    split at h
    · obtain rfl | ⟨o, rfl⟩ := issueWord_next h <;> simp
    · cases h
      simp
  | poll =>
    cases h
    simp

/-- Only a CMD write, which waits while BUSY = 1, can change BUSY. -/
theorem portEffect_busy {op : HostOp} {rest : List HostOp} {s t : State} (hop : waits op = false)
    (h : portEffect op rest s = .next t) : t.busy = s.busy := by
  cases op with
  | read addr =>
    cases h
    rfl
  | write addr v =>
    have haddr : addr.toNat ≠ 0 := fun h0 => by simp [waits, h0] at hop
    rw [portEffect, if_neg haddr] at h
    cases h
    simp
  | poll =>
    cases h
    rfl

/-! ### The host's move (20_memory.md R51, R59) -/

theorem step_held {s : State} {op : HostOp} {rest : List HostOp} {ts : List Turn} (hturn : HostMovesNext s ts)
    (hhost : s.host = op :: rest) (hbusy : s.busy = true) (hop : waits op = true) :
    step s = .next (s.withTurns ts) := by
  have hheld : held (s.withTurns ts) op = true := by simp [held_eq, hbusy, hop]
  rw [step_host hturn, hostMove_cons (s := s.withTurns ts) hhost, hheld]
  rfl

theorem step_perform {s : State} {op : HostOp} {rest : List HostOp} {ts : List Turn} (hturn : HostMovesNext s ts)
    (hhost : s.host = op :: rest) (hheld : held s op = false) : step s = perform op (s.withTurns ts) := by
  rw [step_host hturn, hostMove_cons (s := s.withTurns ts) hhost]
  exact if_neg (Bool.not_eq_true _ ▸ hheld)

theorem step_portEffect {s : State} {op : HostOp} {rest : List HostOp} {ts : List Turn} (hturn : HostMovesNext s ts)
    (hhost : s.host = op :: rest) (hop : op.wellFormed s.cfg = true) (hfree : s.busy = false ∨ waits op = false) :
    step s = portEffect op rest (s.withTurns ts) := by
  have hheld : held s op = false := (held_eq s op).trans (Bool.and_eq_false_iff.mpr hfree)
  rw [step_perform hturn hhost hheld]
  exact perform_eq_portEffect (s := s.withTurns ts) hhost hop

/-- A transaction that the step completes is one the port carries: a wider value is refused (log 8). -/
theorem wellFormed_of_perform {s t : State} {op : HostOp} (h : perform op s = .next t) :
    op.wellFormed s.cfg = true := by
  cases op with
  | read addr => rfl
  | write addr v => exact (hostWrite_next h).1
  | poll => rfl

theorem hostMove_turns {s t : State} (h : hostMove s = .next t) : t.turns = s.turns := by
  obtain rfl | rfl | ⟨v, u, rfl | rfl, rfl⟩ | ⟨v, rest, -, -, -, hw⟩ | ⟨v, rest, -, -, rfl⟩ | ⟨v, rest, -, rfl⟩ |
    ⟨f, v, rest, -, -, -, rfl⟩ := hostMove_cases h
  · rfl
  · rfl
  · rfl
  · rfl
  · obtain rfl | ⟨o, rfl⟩ := issueWord_next hw <;> rfl
  · rfl
  · rfl
  · exact State.setField_turns _ f v

/-- A host whose transactions the port carries is always answered. -/
theorem hostMove_answers {s : State} (hops : ∀ op ∈ s.host, op.wellFormed s.cfg = true) :
    ∃ t, hostMove s = .next t := by
  cases hhost : s.host with
  | nil => exact ⟨s, by rw [hostMove, hhost]⟩
  | cons op rest =>
    rw [hostMove_cons hhost]
    split
    · exact ⟨s, rfl⟩
    · rw [perform_eq_portEffect hhost (hops op (hhost ▸ .head _))]
      exact portEffect_answers op rest s

/-! ### The engine's moves (40_command_execution.md R83; log 4) -/

theorem State.withTurns_turns_self (s : State) : s.withTurns s.turns = s := rfl

/-- The completion step comes on its turn, or with no turn left. -/
theorem step_complete {s : State} {ts : List Turn} {o : CmdOutcome}
    (hturn : s.turns = .complete :: ts ∨ s.turns = [] ∧ ts = []) (ho : s.pending = some o) :
    step s = .next ((s.withTurns ts).finish o) := by
  obtain hturn | ⟨hturn, rfl⟩ := hturn
  · rw [step_cons hturn, takeTurn, State.complete_some (s := s.withTurns ts) ho]
  · rw [step_nil hturn, defaultMove, if_pos (by simp [ho]), State.complete_some ho, ← hturn, State.withTurns_turns_self]

/-- From a lawful state a turn of the schedule always leads on, and is used up. -/
theorem step_cons_answers {s : State} {turn : Turn} {ts : List Turn} (hinv : s.Inv) (hturns : s.turns = turn :: ts) :
    ∃ t, step s = .next t ∧ t.turns = ts := by
  rw [step_cons hturns]
  cases turn with
  | host =>
    obtain ⟨t, ht⟩ := hostMove_answers (hinv.withTurns ts).host
    exact ⟨t, ht, hostMove_turns ht⟩
  | progress => exact ⟨_, rfl, State.progressed_turns _⟩
  | complete => exact ⟨_, rfl, State.complete_turns _⟩
  | reset drop => exact ⟨_, rfl, rfl⟩

/-- A pending command is over once the schedule has no turn left, if not before. -/
theorem run_ends_pending (ts : List Turn) : ∀ s : State, s.turns = ts → s.Inv → s.busy = true →
    ∃ k ≤ ts.length + 1, ∃ t, Host.Core.run core k s = .next t ∧ t.busy = false := by
  induction ts with
  | nil =>
    intro s hturns hinv hbusy
    obtain ⟨o, ho⟩ : ∃ o, s.pending = some o := Option.isSome_iff_exists.mp (hinv.busy_pending ▸ hbusy)
    exact ⟨1, Nat.le_refl _, _, run_step 0 (step_complete (.inr ⟨hturns, rfl⟩) ho), rfl⟩
  | cons turn ts ih =>
    intro s hturns hinv _
    obtain ⟨t, hstep, hts⟩ := step_cons_answers hinv hturns
    cases hbusy : t.busy with
    | false => exact ⟨1, Nat.succ_le_succ (Nat.zero_le _), t, run_step 0 hstep, hbusy⟩
    | true =>
      obtain ⟨k, hk, u, hrun, hidle⟩ := ih t hts ((step_effect hstep).inv hinv) hbusy
      exact ⟨k + 1, Nat.succ_le_succ hk, u, (run_step k hstep).trans hrun, hidle⟩

/-! ### ack, rst and rdata (20_memory.md R45; log 20) -/

/-- `ack` is 1 exactly when the host moves and its outstanding transaction is not held. -/
theorem portAck_iff_host {s : State} : portAck s = true ↔
    ∃ op rest ts, s.host = op :: rest ∧ HostMovesNext s ts ∧ (s.busy = true → waits op = false) := by
  rw [portAck_iff]
  constructor
  · rintro ⟨op, hop, hheld⟩
    obtain ⟨rest, ts, hhost, hturn⟩ := portOp_some hop
    exact ⟨op, rest, ts, hhost, hturn, held_eq_false_iff.mp hheld⟩
  · rintro ⟨op, rest, ts, hhost, hturn, hwait⟩
    exact ⟨op, by rw [portOp_host hturn, hhost, List.head?_cons], held_eq_false_iff.mpr hwait⟩

theorem rst_iff {s : State} : rst s = true ↔ ∃ d, s.turns.head? = some (.reset d) := by
  unfold rst
  split <;> simp_all

theorem portAck_of_rst {s : State} (h : rst s = true) : portAck s = false := by
  obtain ⟨d, hd⟩ := rst_iff.mp h
  obtain ⟨ts, hturns⟩ := List.head?_eq_some_iff.mp hd
  simp [portAck, portOp, hturns]

/-- The step that acknowledges a transaction takes it off the list, but for the polling loop while BUSY = 1. -/
theorem step_host_of_ack {s t : State} (h : step s = .next t) (hack : portAck s = true) :
    ∃ op rest, s.host = op :: rest ∧ t.host = if op = .poll ∧ s.busy = true then op :: rest else rest := by
  obtain ⟨op, hop, hheld⟩ := portAck_iff.mp hack
  obtain ⟨rest, ts, hhost, hturn⟩ := portOp_some hop
  rw [step_perform hturn hhost hheld] at h
  rw [perform_eq_portEffect (s := s.withTurns ts) hhost (wellFormed_of_perform h)] at h
  exact ⟨op, rest, hhost, portEffect_host (s := s.withTurns ts) h⟩

/-- The host's move with no acknowledge leaves the host's list: there is no transaction, or it is held. -/
theorem hostMove_of_not_ack {s : State} {ts : List Turn} (hturn : HostMovesNext s ts) (hack : portAck s = false) :
    hostMove (s.withTurns ts) = .next (s.withTurns ts) := by
  cases hhost : s.host with
  | nil => rw [hostMove, State.withTurns_host, hhost]
  | cons op rest =>
    have hheld : held s op = true := by
      have hport : portOp s = some op := by rw [portOp_host hturn, hhost, List.head?_cons]
      simpa [portAck, hport] using hack
    rw [hostMove_cons (s := s.withTurns ts) hhost]
    exact if_pos hheld

theorem step_host_of_not_ack {s t : State} (h : step s = .next t) (hack : portAck s = false) (hrst : rst s = false) :
    t.host = s.host := by
  have hmove : ∀ ts, HostMovesNext s ts → t.host = s.host := by
    intro ts hturn
    rw [step_host hturn, hostMove_of_not_ack hturn hack] at h
    cases h
    rfl
  cases hturns : s.turns with
  | nil =>
    cases ho : s.pending with
    | none => exact hmove [] (.inr ⟨hturns, rfl, ho⟩)
    | some o =>
      rw [step_complete (.inr ⟨hturns, rfl⟩) ho] at h
      cases h
      rfl
  | cons turn ts =>
    cases turn with
    | host => exact hmove ts (.inl hturns)
    | progress | complete =>
      rw [step_cons hturns] at h
      cases h
      simp
    | reset drop => simp [rst, hturns] at hrst

/-- `rdata` is the map's value for an acknowledged read and STATUS for an acknowledged poll; else it has no value. -/
theorem rdata_eq_some_iff {s : State} {v : Nat} : rdata s = some v ↔ portAck s = true ∧
    ((∃ addr rest, s.host = .read addr :: rest ∧ v = mapRead s addr.toNat) ∨
      ∃ rest, s.host = .poll :: rest ∧ v = s.statusWord) := by
  cases hport : portOp s with
  | none => simp [rdata, portAck, hport]
  | some op =>
    obtain ⟨rest, ts, hhost, -⟩ := portOp_some hport
    cases op with
    | read addr => simp [rdata, hport, hhost, hostRead_eq_mapRead, @eq_comm _ v]
    | write addr w => simp [rdata, hport, hhost]
    | poll => simp [rdata, hport, hhost, @eq_comm _ v]

/-! ### The bytes of a register value (20_memory.md R53) -/

theorem ofNat_slice_byte (v j : Nat) :
    BitVec.ofNat 8 (slice v (8 * j + 7) (8 * j)) = BitVec.ofNat 8 (v / 2 ^ (8 * j)) := by
  have hwidth : 8 * j + 7 + 1 - 8 * j = 8 := by omega
  apply BitVec.eq_of_toNat_eq
  simp [slice, hwidth]

theorem toBytes_getElem? {dw v j : Nat} (hj : j < (dw + 7) / 8) :
    (toBytes dw v)[j]? = some (BitVec.ofNat 8 (v / 2 ^ (8 * j))) := by
  simp [toBytes, hj, ofNat_slice_byte]

/-- `n` bytes, lowest first, stand for the value modulo `2 ^ (8 * n)`. -/
theorem ofBytes_map_range (n v : Nat) :
    ofBytes ((List.range n).map fun j => BitVec.ofNat 8 (v / 2 ^ (8 * j))) = v % 2 ^ (8 * n) := by
  induction n generalizing v with
  | zero => simp [ofBytes, Nat.mod_one]
  | succ n ih =>
    have hshift : ∀ j, v / 2 ^ (8 * (j + 1)) = v / 256 / 2 ^ (8 * j) := by
      intro j
      rw [Nat.div_div_eq_div_mul, Nat.mul_succ, Nat.pow_add, Nat.mul_comm]
    have hsplit : v % 2 ^ (8 * (n + 1)) = v % 256 + 256 * (v / 256 % 2 ^ (8 * n)) := by
      rw [Nat.mul_succ, Nat.pow_add, Nat.mul_comm (2 ^ (8 * n))]
      exact Nat.mod_mul
    rw [hsplit, ← ih (v / 256), List.range_succ_eq_map]
    simp [ofBytes, hshift, Function.comp_def]

theorem ofBytes_toBytes {dw v : Nat} (hv : v < 2 ^ dw) : ofBytes (toBytes dw v) = v := by
  have hfits : 2 ^ dw ≤ 2 ^ (8 * ((dw + 7) / 8)) := Nat.pow_le_pow_right (by decide) (by omega)
  simp only [toBytes, ofNat_slice_byte, ofBytes_map_range]
  exact Nat.mod_eq_of_lt (by omega)

end Sys2Proof.Machine
end

section
/-! PROOFS. The statements about the host port: the address map, the hold rule, and the steps of the host and the engine. -/

namespace Sys2Proof.Proofs

open Sys2Proof Sys2Proof.Machine Sys2Proof.Claims

/-! ### The address map -/

/-- Settles O28: the model's map and the table agree at every address. -/
theorem addressMapReadsWritesAndHolds : Obligations.AddressMapReadsWritesAndHolds := by
  intro s addr
  exact ⟨hostRead_eq_mapRead s addr, fun v hv => hostWrite_eq_mapWrite hv addr, held_eq s _, fun v => held_eq s _⟩

/-- Settles O30: no register stands at a reserved address. -/
theorem reservedAddressesReadZeroIgnoreWrites : Obligations.ReservedAddressesReadZeroIgnoreWrites := by
  intro s addr hres
  have hnone := regAt_reserved hres
  refine ⟨by rw [hostRead, hnone], fun v hv => ?_, ?_, fun v => ?_⟩
  · rw [hostWrite, if_pos ((carries_iff _ _).mpr hv), hnone]
  · rw [held, hnone]
    exact Bool.and_false _
  · rw [held, hnone]
    exact Bool.and_false _

/-- Settles O31: a write of the map is idempotent and leaves the data width, so the port carries it again. -/
theorem repeatedWritesChangeNothingMore : Obligations.RepeatedWritesChangeNothingMore := by
  intro s t addr v haddr hwrite
  have hne : addr.toNat ≠ 0 := fun h0 => haddr (BitVec.eq_of_toNat_eq h0)
  have hv : v < 2 ^ s.cfg.dw := (carries_iff _ _).mp (hostWrite_next hwrite).1
  rw [hostWrite_eq_mapWrite hv, if_neg hne] at hwrite
  cases hwrite
  rw [hostWrite_eq_mapWrite (by simpa using hv), if_neg hne, mapWrite_idem]

/-- Settles O34, by induction on the number of bytes. -/
theorem bytesAreLittleEndian : Obligations.BytesAreLittleEndian := by
  intro dw v hv
  exact ⟨by simp [toBytes], fun j hj => toBytes_getElem? hj, ofBytes_toBytes hv⟩

/-! ### The host's move -/

/-- Settles O29: a read is a transaction of any port, and it is not held. -/
theorem hostReadDeliversAndChangesNothing : Obligations.HostReadDeliversAndChangesNothing := by
  intro s addr rest ts hturns hhost hfree
  exact step_portEffect (.inl hturns) hhost rfl hfree

/-- Settles O7, by whether the outstanding transaction is held. -/
theorem heldTransactionsWaitAndOthersComplete : Obligations.HeldTransactionsWaitAndOthersComplete := by
  intro s op rest ts hturn hhost hop
  have heffect := step_portEffect hturn hhost hop
  obtain ⟨t, ht⟩ := portEffect_answers op rest (s.withTurns ts)
  have hleft := portEffect_host ht
  refine ⟨step_held hturn hhost, heffect, fun hbusy hwait hpoll => ?_, fun hidle => ?_⟩
  · refine ⟨t, (heffect (.inr hwait)).trans ht, ?_, (portEffect_busy hwait ht).trans hbusy⟩
    rw [hleft, if_neg fun h => hpoll h.1]
  · refine ⟨t, (heffect (.inl hidle)).trans ht, ?_⟩
    rw [hleft, if_neg fun h => by simp [hidle] at h]

/-- Settles O5: the CMD write is not held, and its value is the word of the decoded command. -/
theorem stepRunsTheDecodedCommand : Obligations.StepRunsTheDecodedCommand := by
  have hruns : ∀ {s : State} {v : Nat} {i : Instr} {rest : List HostOp} {ts : List Turn}, HostMovesNext s ts →
      s.host = .write 0x00 v :: rest → s.busy = false → v < 2 ^ s.cfg.dw → decode v = .ok i →
      step s = exec i { s with turns := ts, host := rest } := by
    intro s v i rest ts hturn hhost hidle hv hd
    rw [step_cmd_write hturn hhost hidle hv, State.popHost_of_host (s := s.withTurns ts) hhost, issueWord, hd]
    rfl
  refine ⟨fun s v i rest ts hhost hidle hv hd => ⟨fun hturns => ?_, fun hturns hp => ?_⟩, fun s nbits w i htable => ?_⟩
  · exact hruns (.inl hturns) hhost hidle hv hd
  · rw [hruns (.inr ⟨hturns, rfl, hp⟩) hhost hidle hv hd, ← hturns]
  · have hd : decode (w % 2 ^ nbits) = .ok i := by
      rw [decodeTableWord] at htable
      cases hdec : decode (w % 2 ^ nbits) with
      | ok j => rw [hdec] at htable; exact congrArg Except.ok (Option.some.inj htable)
      | error e => rw [hdec] at htable; cases htable
    have hword : w % 2 ^ nbits < 2 ^ 32 := encode_of_decode hd ▸ encode_lt i
    have hwide : 2 ^ 32 ≤ 2 ^ s.cfg.dw :=
      Nat.pow_le_pow_right (by decide) (Nat.le_trans (by decide) s.cfg.wf.dw_ge)
    exact hruns (s := s.withFetchWord nbits w) (.inl rfl) rfl rfl (Nat.lt_of_lt_of_le hword hwide) hd

/-- Settles O57, from what `ack`, `rst` and `rdata` each say of the step. -/
theorem ackAndRdataBelongToTheCompletingStep : Obligations.AckAndRdataBelongToTheCompletingStep := by
  intro s t hstep
  exact ⟨portAck_iff_host, step_host_of_ack hstep, step_host_of_not_ack hstep, rst_iff, portAck_of_rst,
    fun _ => rdata_eq_some_iff, step_reads hstep⟩

/-! ### The engine -/

/-- Settles O6: completion finishes the pending outcome, field by field. -/
theorem completionStepWritesTheOutcome : Obligations.CompletionStepWritesTheOutcome := by
  refine ⟨fun s ts hturns hnone => ?_, fun s ts hturn => ⟨fun code arg ho => ?_, fun w n ho => ?_⟩⟩
  · rw [step_cons hturns, takeTurn, State.complete_none (s := s.withTurns ts) hnone]
    rfl
  · rw [step_complete hturn ho]
    rfl
  · rw [step_complete hturn ho]
    rfl

/-- Settles O43, effect by effect: a completion, a reset, or a write that waits would not leave BUSY at 1. -/
theorem busyPeriodKeepsOperandsAndOutcome : Obligations.BusyPeriodKeepsOperandsAndOutcome := by
  intro s t hstep hbusy hbusy' hreset
  cases step_effect hstep with
  | complete ts =>
    cases ho : s.pending with
    | none => simp [State.complete_none (s := s.withTurns ts) ho, ho]
    | some o => simp [State.complete_some (s := s.withTurns ts) ho] at hbusy'
  | accept ts v rest o hhost hidle hv ho => simp [hidle] at hbusy
  | setField ts f v rest hhost hidle hv => simp [hidle] at hbusy
  | reset ts drop hturn => simp [hturn] at hreset
  | _ => simp

/-- Settles O51, by induction on the schedule: each turn is used up, and at its end the command completes. -/
theorem everyPendingCommandEndsInBoundedSteps : Obligations.EveryPendingCommandEndsInBoundedSteps := by
  intro s hinv hbusy
  exact run_ends_pending s.turns s rfl hinv hbusy

end Sys2Proof.Proofs
end

section
/-! SUPPORT. The decoder on a word of format C, the index of a decoded command, and the failure of an illegal value. -/

namespace Sys2Proof.Machine

open Sys2Proof.Claims

/-! ### The decoder (30_encoding.md R66 to R70) -/

/-- The decoder reads back both fields of a format C word; the other two are 0 (30_encoding.md R66). -/
theorem decode_formatC (imm : Nat) {op : Nat} (hop : op < 256) :
    decode (formatC imm op) = decodeOp op (imm % 65536) := by
  have hupper : cmdUpper (formatC imm op) = 0 := by simp only [cmdUpper, formatC]; omega
  have hrsv : cmdRsv (formatC imm op) = 0 := by simp only [cmdRsv, slice, formatC]; omega
  have himm : cmdImm (formatC imm op) = imm % 65536 := by simp only [cmdImm, slice, formatC]; omega
  have hop' : cmdOp (formatC imm op) = op := by simp only [cmdOp, slice, formatC]; omega
  simp [decode, hupper, hrsv, himm, hop']

/-- A value that decodes has passed the checks of UPPER and RSV, so its OP and IMM alone make the command. -/
theorem decodeOp_of_decode {v : Nat} {i : Instr} (h : decode v = .ok i) : decodeOp (cmdOp v) (cmdImm v) = .ok i := by
  unfold decode at h
  split_ifs at h
  exact h

/-- Only the three commands with a round index can be ill-formed (30_encoding.md R67). -/
theorem wellFormed_iff_indexOf (i : Instr) : i.wellFormed = true ↔ ∀ n ∈ indexOf i, n < 65536 := by
  cases i <;> simp [Instr.wellFormed, indexOf]

theorem indexOf_of_plainCommand {imm : Nat} {i j : Instr} (hj : indexOf j = none) (h : plainCommand imm j = .ok i) :
    indexOf i = none := by
  unfold plainCommand at h
  split at h
  · exact Except.ok.inj h ▸ hj
  · cases h

/-- The index of a decoded command is its IMM field (30_encoding.md R67). -/
theorem indexOf_of_decodeOp {op imm : Nat} {i : Instr} (h : decodeOp op imm = .ok i) : ∀ n ∈ indexOf i, n = imm := by
  unfold decodeOp at h
  split at h
  case h_7 | h_8 | h_9 =>
    cases h
    exact fun n hn => (Option.some.inj hn).symm
  case h_16 => cases h
  all_goals simp [indexOf_of_plainCommand rfl h]

/-- IMM is a field of 16 bits, so every decoded command is well-formed. -/
theorem wellFormed_of_decode {v : Nat} {i : Instr} (h : decode v = .ok i) : i.wellFormed = true := by
  refine (wellFormed_iff_indexOf i).mpr fun n hn => ?_
  rw [indexOf_of_decodeOp (decodeOp_of_decode h) n hn]
  exact Nat.mod_lt _ (by decide)

/-! ### The failure of an illegal value (60_exceptions.md R120) -/

theorem complete_accepted_illegal (s : State) (v : Nat) :
    (s.accepted v illegalOutcome).complete = failedWith s v 3 0 := rfl

theorem failsAsIllegal_of_illegalValue {v : Nat} (h : IllegalValue v) : FailsAsIllegal v :=
  fun s hidle => ⟨_, issueWord_illegal hidle h, ⟨illegalOutcome, rfl⟩, complete_accepted_illegal s v⟩

end Sys2Proof.Machine
end

section
/-! PROOFS. The statements about the encoding. -/

namespace Sys2Proof.Proofs

open Sys2Proof Sys2Proof.Machine Sys2Proof.Claims

/-- Settles O1: a 16-bit index is the whole of its IMM field; the word of any other command is a constant. -/
theorem decodeOfEncodeIsTheCommand : Obligations.DecodeOfEncodeIsTheCommand := by
  intro i hwf
  cases i with
  | round imm | ldc imm | fstep imm =>
    have himm : imm % 65536 = imm := Nat.mod_eq_of_lt (of_decide_eq_true hwf)
    rw [encode, decode_formatC imm (by decide), himm]
    rfl
  | _ => rfl

/-- Settles O2: IMM is a field of 16 bits, and the word written from OP and IMM is the value, whose other bits are 0. -/
theorem decodedValueIsTheCommandsWord : Obligations.DecodedValueIsTheCommandsWord :=
  fun _ _ h => ⟨wellFormed_of_decode h, encode_of_decode h⟩

/-- Settles O3: the three bad words are illegal by their IMM, their RSV and their OP in turn. -/
theorem workedEncodingsDecode : Obligations.WorkedEncodingsDecode := by
  refine ⟨rfl, rfl, rfl, rfl, fun v hv s hidle => ?_⟩
  have hillegal : IllegalValue v := by
    simp only [List.mem_cons, List.not_mem_nil, or_false] at hv
    obtain rfl | rfl | rfl := hv
    · exact .inr (.inr (.inr (by decide)))
    · exact .inr (.inl (by decide))
    · exact .inr (.inr (.inl (by decide)))
  obtain ⟨t, hissue, -, hcomplete⟩ := failsAsIllegal_of_illegalValue hillegal s hidle
  exact ⟨t, hissue, hcomplete⟩

end Sys2Proof.Proofs
end

section
/-! SUPPORT. The only word of a command without an index, and the life cycle of a command on an idle block. -/

namespace Sys2Proof.Machine

open Sys2Proof.Claims

/-! ### The word of a command without an index (30_encoding.md R67, R70) -/

/-- The word of a command without an index is no OP that takes one. -/
theorem encode_notMem_indexedOps {i : Instr} (h : indexOf i = none) : encode i ∉ [0x10, 0x11, 0x20] := by
  cases i with
  | round imm | ldc imm | fstep imm => cases h
  | _ => decide

/-- With UPPER and RSV 0, a value that differs from its OP has an IMM that is not 0. -/
theorem illegalValue_of_ne_op {v : Nat} (hop : v % 256 ∉ [0x10, 0x11, 0x20]) (hne : v ≠ v % 256) : IllegalValue v := by
  by_cases hupper : v / 2 ^ 32 = 0
  · by_cases hrsv : v / 2 ^ 8 % 256 = 0
    · have himm : v / 2 ^ 16 % 65536 ≠ 0 := by omega
      exact .inr (.inr (.inr ⟨himm, hop⟩))
    · exact .inr (.inl hrsv)
  · exact .inl hupper

theorem onlyWord_encode {i : Instr} (h : indexOf i = none) : OnlyWord i (encode i) := by
  have hop := encode_notMem_indexedOps h
  have hwf : i.wellFormed = true := (wellFormed_iff_indexOf i).mpr (by simp [h])
  refine ⟨fun v => ⟨fun hd => (encode_of_decode hd).symm, ?_⟩, fun v hv hne => ?_⟩
  · rintro rfl
    exact Proofs.decodeOfEncodeIsTheCommand i hwf
  · rw [← hv] at hop hne
    exact failsAsIllegal_of_illegalValue (illegalValue_of_ne_op hop hne)

/-! ### Acceptance and completion on an idle block (40_command_execution.md R79 to R83) -/

/-- An idle block accepts every command, and its completion writes the outcome of the state before acceptance. -/
theorem completes_commandOutcome {s : State} (i : Instr) (hb : s.busy = false) :
    Completes i (encode i) s ((s.accepted (encode i) (commandOutcome i s)).finish (commandOutcome i s)) :=
  ⟨_, exec_idle i hb, ⟨commandOutcome i s, rfl⟩, State.complete_accepted s (encode i) (commandOutcome i s)⟩

/-- What an accepted command leaves when it succeeds without a write: the life-cycle fields alone. -/
theorem finish_accepted_no_writes (s : State) (v n : Nat) :
    (s.accepted v (.ok {} n)).finish (.ok {} n) = succeeded s v n := rfl

/-- NOP has no check, whatever CFGERR is, and no write (40_command_execution.md R84). -/
theorem commandOutcome_nop (s : State) : commandOutcome .nop s = .ok {} 0 := rfl

end Sys2Proof.Machine
end

section
/-! PROOFS. The statement about NOP. -/

namespace Sys2Proof.Proofs

open Sys2Proof Sys2Proof.Machine Sys2Proof.Claims

/-- Settles O9: NOP's outcome has no check that can fail and no write, so its completion leaves the life-cycle fields
alone. -/
theorem nopOnlyRunsTheLifeCycle : Obligations.NopOnlyRunsTheLifeCycle := by
  refine ⟨onlyWord_encode (i := .nop) rfl, fun s hidle => ?_⟩
  have hcompletes := completes_commandOutcome .nop hidle
  rwa [commandOutcome_nop, finish_accepted_no_writes] at hcompletes

end Sys2Proof.Proofs
end

section
/-! SUPPORT. The completion of a command with checked operands, and the outcomes of the field unit's commands. -/

namespace Sys2Proof.Machine

open Sys2Proof.Claims

/-! ### The checks at completion (40_command_execution.md R81 to R83) -/

/-- A command with neither a ROM read nor a round index checks its operands alone (40_command_execution.md R81). -/
theorem commandOutcome_eq_checked {i : Instr} (hrom : readsRom i = false) (hidx : indexOf i = none) (s : State) :
    commandOutcome i s = checked s (checkedRegs i) (successOf s i) := by
  rw [commandOutcome, romChecked, hrom, indexChecked, hidx]
  rfl

/-- On an idle block such a command completes with what its operand check leaves. -/
theorem completes_of_checked {i : Instr} {s u : State} (hrom : readsRom i = false) (hidx : indexOf i = none)
    (hb : s.busy = false)
    (hu : (s.accepted (encode i) (checked s (checkedRegs i) (successOf s i))).complete = u) :
    Completes i (encode i) s u := by
  have hcompletes := completes_commandOutcome i hb
  rwa [← State.complete_accepted, commandOutcome_eq_checked hrom hidx, hu] at hcompletes

theorem complete_accepted_invalidInput (s : State) (v : Nat) (arg : BitVec 5) :
    (s.accepted v (.fail .invalidInput arg)).complete = failedWith s v 1 arg := rfl

/-- The first operand of the list fails the command if it is not canonical; otherwise the rest of the list decides. -/
theorem complete_accepted_checked_cons (s : State) (v : Nat) (f : FieldReg) (fs : List FieldReg) (o : CmdOutcome) :
    (s.accepted v (checked s (f :: fs) o)).complete =
      if s.cfg.p ≤ s.fieldVal f then failedWith s v 1 (fieldAddr f)
      else (s.accepted v (checked s fs o)).complete := by
  split
  next hbad => rw [checked_cons_fail hbad, complete_accepted_invalidInput]
  next hgood => rw [checked_cons_ok (Nat.not_le.mp hgood)]

/-- A success that writes R, and EQ if the outcome has a write of it. -/
theorem complete_accepted_result (s : State) (v x n : Nat) (e : Option Bool) :
    (s.accepted v (.ok { r := some x, eq := e } n)).complete =
      { succeeded s v n with r := x, eq := e.getD s.eq } := rfl

/-! ### The field unit (41_field_arith.md R86 to R90) -/

/-- FADD, FMUL and FEQ check A, then B, and write `x` to R. -/
theorem complete_accepted_binary (s : State) (v x : Nat) (e : Option Bool) :
    (s.accepted v (checked s [.a, .b] (.ok { r := some x, eq := e } 0))).complete =
      if s.cfg.p ≤ s.a then failedWith s v 1 0x09
      else if s.cfg.p ≤ s.b then failedWith s v 1 0x0A
      else { succeeded s v 0 with r := x, eq := e.getD s.eq } := by
  rw [complete_accepted_checked_cons, complete_accepted_checked_cons, checked_nil, complete_accepted_result]
  rfl

theorem successOf_fpow (s : State) : successOf s .fpow = .ok { r := some (s.a ^ s.b % s.cfg.p) } 0 := by
  rw [successOf, powp_eq]

/-- FEQ writes one comparison, as a number to R and as a bit to EQ (41_field_arith.md R90). -/
theorem successOf_feq (s : State) :
    successOf s .feq = .ok { r := some (if s.a = s.b then 1 else 0), eq := some (decide (s.a = s.b)) } 0 := by
  rw [successOf, beq_eq_decide, Bool.toNat, Bool.cond_decide]

end Sys2Proof.Machine
end

section
/-! PROOFS. The statements about the field unit. -/

namespace Sys2Proof.Proofs

open Sys2Proof Sys2Proof.Machine Sys2Proof.Claims

/-- Settles O12: A alone is checked, and square and multiply gives the exact power (`powp_eq`). -/
theorem fpowWritesTheExactModularPower : Obligations.FpowWritesTheExactModularPower := by
  refine ⟨onlyWord_encode (i := .fpow) rfl, fun s hidle => completes_of_checked (i := .fpow) rfl rfl hidle ?_⟩
  rw [successOf_fpow, checkedRegs, complete_accepted_checked_cons, checked_nil, complete_accepted_result]
  rfl

/-- Settles O10: the model's sum `addp` is the statement's. -/
theorem faddWritesTheModularSum : Obligations.FaddWritesTheModularSum := by
  refine ⟨onlyWord_encode (i := .fadd) rfl, fun s hidle => completes_of_checked (i := .fadd) rfl rfl hidle ?_⟩
  exact complete_accepted_binary s _ (addp s.cfg.p s.a s.b) none

/-- Settles O11: the model's product `mulp` is the statement's. -/
theorem fmulWritesTheModularProduct : Obligations.FmulWritesTheModularProduct := by
  refine ⟨onlyWord_encode (i := .fmul) rfl, fun s hidle => completes_of_checked (i := .fmul) rfl rfl hidle ?_⟩
  exact complete_accepted_binary s _ (mulp s.cfg.p s.a s.b) none

/-- Settles O13: FRED has no check that can fail. -/
theorem fredReducesAnyValue : Obligations.FredReducesAnyValue := by
  refine ⟨onlyWord_encode (i := .fred) rfl, fun s hidle => completes_of_checked (i := .fred) rfl rfl hidle ?_⟩
  exact complete_accepted_result s _ (s.a % s.cfg.p) 0 none

/-- Settles O14: FEQ's failures write nothing, and no other command has a write of EQ (O37). -/
theorem feqWritesResultAndFlag : Obligations.FeqWritesResultAndFlag := by
  refine ⟨onlyWord_encode (i := .feq) rfl, fun s hidle => ⟨?_, fun i hi => ?_⟩⟩
  · refine completes_of_checked (i := .feq) rfl rfl hidle ?_
    rw [successOf_feq]
    exact complete_accepted_binary s _ (if s.a = s.b then 1 else 0) (some (decide (s.a = s.b)))
  · obtain ⟨t, hexec, -, heq, -⟩ := onlySuccessfulFeqWritesEq.2 i s hidle
    rw [if_neg fun h => hi h.1] at heq
    exact ⟨t, hexec, heq⟩

end Sys2Proof.Proofs
end

section
/-! SUPPORT. The fifth power is injective modulo `P` (42_round.md R94), and the word and the checks of a command with a
round index (40_command_execution.md R81). -/

namespace Sys2Proof.Machine

open Sys2Proof.Claims

/-! ### The fifth power (00_scope.md R9, 42_round.md R94) -/

/-- In the field of order `P` the quotient of two elements with the same fifth power has an order that divides 5 and
`P - 1`, which are coprime. -/
theorem pow_five_injective_zmod {p : Nat} (hp : p.Prime) (hcop : Nat.Coprime 5 (p - 1)) :
    Function.Injective fun x : ZMod p => x ^ 5 := by
  have : Fact p.Prime := ⟨hp⟩
  intro x y (hxy : x ^ 5 = y ^ 5)
  by_cases hy : y = 0
  · subst hy
    rw [zero_pow (by decide)] at hxy
    exact eq_zero_of_pow_eq_zero hxy
  · have hfive : (x / y) ^ 5 = 1 := by rw [div_pow, hxy, div_self (pow_ne_zero 5 hy)]
    have hne : x / y ≠ 0 := (pow_ne_zero_iff (by decide)).mp (hfive ▸ one_ne_zero)
    have hgcd : (x / y) ^ Nat.gcd 5 (p - 1) = 1 := pow_gcd_eq_one.mpr ⟨hfive, ZMod.pow_card_sub_one_eq_one hne⟩
    rw [hcop, pow_one] at hgcd
    exact (div_eq_one_iff_eq hy).mp hgcd

theorem modEq_of_pow_five_modEq (c : Config) {x y : Nat} (h : x ^ 5 ≡ y ^ 5 [MOD c.p]) : x ≡ y [MOD c.p] := by
  rw [← ZMod.natCast_eq_natCast_iff] at h ⊢
  push_cast at h
  exact pow_five_injective_zmod c.wf.prime c.wf.coprime h

/-- The round function, whatever its key and constant, permutes the field elements: it is injective on a finite set
that it maps into itself. -/
theorem rf_bijOn (c : Config) (k e : Nat) : Set.BijOn (fun x => rf c.p x k e) (Set.Iio c.p) (Set.Iio c.p) := by
  have hmaps : Set.MapsTo (fun x => rf c.p x k e) (Set.Iio c.p) (Set.Iio c.p) :=
    fun x _ => rf_lt (Config.p_pos c) x k e
  refine ((Set.finite_Iio c.p).injOn_iff_bijOn_of_mapsTo hmaps).mp fun x hx y hy hxy => ?_
  change rf c.p x k e = rf c.p y k e at hxy
  rw [rf_eq, rf_eq] at hxy
  have hsum : x + k + e ≡ y + k + e [MOD c.p] := modEq_of_pow_five_modEq c hxy
  have hmod : x ≡ y [MOD c.p] := (hsum.add_right_cancel' e).add_right_cancel' k
  exact hmod.eq_of_lt_of_lt hx hy

/-- The S-box is the round function of key 0 and constant 0. -/
theorem sbox_eq_rf_zero (p : Nat) : sbox p = fun x => rf p x 0 0 := by
  funext x
  exact (sbox_eq p x).trans (rf_eq p x 0 0).symm

theorem rf_roundConst_eq_refRound (c : Config) (k i x : Nat) : rf c.p x k (c.roundConst i) = refRound c k i x :=
  rf_eq c.p x k _

/-! ### The word of a command with a round index (30_encoding.md R66, R67) -/

theorem formatC_of_lt {imm : Nat} (op : Nat) (himm : imm < 65536) : formatC imm op = imm * 65536 + op := by
  rw [formatC, Nat.mod_eq_of_lt himm]

/-- The word of a command with a 16-bit index is its only one (30_encoding.md R70). -/
theorem onlyIndexedWord_of_encode {i : Instr} {imm op : Nat} (hidx : indexOf i = some imm) (himm : imm < 65536)
    (henc : encode i = formatC imm op) : OnlyIndexedWord i imm op := by
  have hwf : i.wellFormed = true := (wellFormed_iff_indexOf i).mpr (by simp [hidx, himm])
  rw [formatC_of_lt op himm] at henc
  refine ⟨fun v => ⟨fun hd => (encode_of_decode hd).symm.trans henc, ?_⟩, fun v _ hbad => ?_⟩
  · rintro rfl
    rw [← henc]
    exact Proofs.decodeOfEncodeIsTheCommand i hwf
  · obtain hrsv | hupper := hbad
    · exact failsAsIllegal_of_illegalValue (.inr (.inl hrsv))
    · exact failsAsIllegal_of_illegalValue (.inl hupper)

/-! ### The checks of a command with a round index (40_command_execution.md R81) -/

/-- CFGERR fails a ROM reader before its index is looked at (60_exceptions.md R121). -/
theorem complete_accepted_romReader (s : State) (v : Nat) (o : CmdOutcome) :
    (s.accepted v (romReader s o)).complete =
      if s.cfgerr = true then failedWith s v 2 0 else (s.accepted v o).complete := by
  split
  next hbad => rw [romReader_fail o hbad]; rfl
  next hgood => rw [romReader_ok o (Bool.eq_false_iff.mpr hgood)]

/-- An index of NR or more fails the command before an operand is looked at (60_exceptions.md R122). -/
theorem complete_accepted_indexed (s : State) (v imm : Nat) (o : CmdOutcome) :
    (s.accepted v (indexed s imm o)).complete =
      if s.cfg.nr ≤ imm then failedWith s v 4 0 else (s.accepted v o).complete := by
  split
  next hbad => rw [indexed_fail o hbad]; rfl
  next hgood => rw [indexed_ok o (Nat.not_le.mp hgood)]

theorem commandOutcome_eq_romReader_indexed {i : Instr} {imm : Nat} (hrom : readsRom i = true)
    (hidx : indexOf i = some imm) (s : State) :
    commandOutcome i s = romReader s (indexed s imm (checked s (checkedRegs i) (successOf s i))) := by
  rw [commandOutcome, romChecked, hrom, indexChecked, hidx]
  rfl

/-- On an idle block a ROM reader with a round index checks CFGERR, then the index; its operands decide the rest. -/
theorem completes_of_indexed {i : Instr} {imm v : Nat} {s : State} (hrom : readsRom i = true)
    (hidx : indexOf i = some imm) (henc : encode i = v) (hb : s.busy = false) :
    Completes i v s
      (if s.cfgerr = true then failedWith s v 2 0
       else if s.cfg.nr ≤ imm then failedWith s v 4 0
       else (s.accepted v (checked s (checkedRegs i) (successOf s i))).complete) := by
  have hcompletes := completes_commandOutcome i hb
  rwa [← State.complete_accepted, commandOutcome_eq_romReader_indexed hrom hidx, complete_accepted_romReader,
    complete_accepted_indexed, henc] at hcompletes

/-- While CFGERR = 0 the ROM has an entry for every round (10_state.md R37), and `roundConst` reads it. -/
theorem getElem?_consts_of_lt {s : State} (hflag : RomFlagTrue s) (hgood : s.cfgerr = false) {i : Nat}
    (hi : i < s.cfg.nr) : s.cfg.consts[i]? = some (s.cfg.roundConst i) := by
  have hlen : s.cfg.consts.length = s.cfg.nr := by
    by_contra hne
    have hmismatch := hflag.trans ((mismatch_iff s.cfg).mpr hne)
    rw [hgood] at hmismatch
    cases hmismatch
  have hlt : i < s.cfg.consts.length := hlen ▸ hi
  rw [List.getElem?_eq_getElem hlt, Config.roundConst, List.getD_eq_getElem _ _ hlt]

end Sys2Proof.Machine
end

section
/-! PROOFS. The statements about the round function and its commands. -/

namespace Sys2Proof.Proofs

open Sys2Proof Sys2Proof.Machine Sys2Proof.Claims

/-- Settles O53: 5 is coprime to `P - 1`, so the fifth power is injective; adding the key and the constant is too. -/
theorem sboxAndRoundFunctionAreBijections : Obligations.SboxAndRoundFunctionAreBijections :=
  fun c => ⟨sbox_eq c.p, sbox_eq_rf_zero c.p ▸ rf_bijOn c 0 0,
    fun k i _ => ⟨rf_roundConst_eq_refRound c k i, rf_bijOn c k (c.roundConst i)⟩⟩

/-- Settles O15: CFGERR, the index, A and KEY are checked in this order, and `rf_eq` gives the value written. -/
theorem roundWritesTheRoundFunction : Obligations.RoundWritesTheRoundFunction := by
  refine fun imm himm => ⟨onlyIndexedWord_of_encode rfl himm rfl, fun s hidle _ => ?_⟩
  have hcompletes := completes_of_indexed (i := .round imm) rfl rfl (formatC_of_lt 0x10 himm) hidle
  rwa [successOf, checkedRegs, complete_accepted_checked_cons, complete_accepted_checked_cons, checked_nil,
    complete_accepted_result, rf_eq] at hcompletes

/-- Settles O16: LDC has no operand to check; with CFGERR 0 the table has an entry for every round. -/
theorem ldcWritesTheRomEntry : Obligations.LdcWritesTheRomEntry := by
  refine fun imm himm => ⟨onlyIndexedWord_of_encode rfl himm rfl, fun s hidle hflag => ?_⟩
  have hcompletes := completes_of_indexed (i := .ldc imm) rfl rfl (formatC_of_lt 0x11 himm) hidle
  refine ⟨fun hbad => ?_, fun hgood hrange => ?_, fun hgood hrange => ?_⟩
  · rwa [if_pos hbad] at hcompletes
  · rwa [if_neg (by simp [hgood]), if_pos hrange] at hcompletes
  · rw [if_neg (by simp [hgood]), if_neg (Nat.not_le.mpr hrange)] at hcompletes
    exact ⟨s.cfg.roundConst imm, getElem?_consts_of_lt hflag hgood hrange, hcompletes⟩

end Sys2Proof.Proofs
end

section
/-! SUPPORT. The Feistel rounds are the loops of 43_feistel.md R100 and R105 and undo each other, and what a command that
writes the pair (XL, XR) completes with. -/

namespace Sys2Proof.Machine

open Sys2Proof.Claims

/-! ### The loops of the spec (43_feistel.md R98 to R100, R104, R105) -/

theorem feistelRound_eq_refStep (c : Config) (k i : Nat) (lr : Nat × Nat) :
    feistelRound c k i lr = refStep c k lr i := by
  simp only [feistelRound, refStep, rf_roundConst_eq_refRound, addp, Nat.lt_sub_iff_add_lt]

theorem forwardRounds_eq_foldl (c : Config) (k : Nat) (lr : Nat × Nat) (n : Nat) :
    forwardRounds c k n lr = (List.range n).foldl (refStep c k) lr := by
  induction n with
  | zero => rfl
  | succ n ih => rw [forwardRounds, ih, feistelRound_eq_refStep, List.range_succ, List.foldl_concat]

theorem permute_eq_refPermute (c : Config) (l r k : Nat) : permute c l r k = refPermute c l r k :=
  forwardRounds_eq_foldl c k (l, r) c.nr

/-- For a canonical `t` the integer difference and the natural one that first adds `P` are congruent modulo `P`. -/
theorem subp_eq_refSub {p a t : Nat} (ht : t < p) : subp p a t = refSub p a t := by
  have hsub : ((a + p - t : Nat) : Int) = (a : Int) - t + p := by omega
  have hcast : ((subp p a t : Nat) : Int) = (refSub p a t : Nat) := by
    rw [subp_eq_emod (Nat.zero_lt_of_lt ht), refSub, Int.natCast_emod, hsub, Int.add_emod_right]
  exact_mod_cast hcast

theorem subp_rf_eq_refSub (c : Config) (k i x a : Nat) :
    subp c.p a (rf c.p x k (c.roundConst i)) = refSub c.p a (refRound c k i x) := by
  rw [subp_eq_refSub (rf_lt (Config.p_pos c) _ _ _), rf_roundConst_eq_refRound]

theorem feistelUnround_of_lt {c : Config} {i : Nat} (hi : i + 1 < c.nr) (k : Nat) (lr : Nat × Nat) :
    feistelUnround c k i lr = refUnstep c k lr i := by
  rw [feistelUnround, if_pos hi, subp_rf_eq_refSub, refUnstep]

theorem feistelUnround_last (c : Config) (k : Nat) (lr : Nat × Nat) :
    feistelUnround c k (c.nr - 1) lr = (lr.1, refSub c.p lr.2 (refRound c k (c.nr - 1) lr.1)) := by
  rw [feistelUnround, if_neg (by omega), subp_rf_eq_refSub]

/-- The inverse rounds below the final one. -/
theorem backwardRounds_eq_foldl {c : Config} (k : Nat) {n : Nat} (hn : n < c.nr) (lr : Nat × Nat) :
    backwardRounds c k n lr = (List.range n).reverse.foldl (refUnstep c k) lr := by
  induction n generalizing lr with
  | zero => rfl
  | succ n ih =>
    rw [backwardRounds, ih (by omega), feistelUnround_of_lt hn, List.range_succ, List.reverse_concat, List.foldl_cons]

theorem unpermute_eq_refUnpermute (c : Config) (l r k : Nat) : unpermute c l r k = refUnpermute c l r k := by
  have hlast : c.nr - 1 + 1 = c.nr := Nat.sub_add_cancel c.wf.nr_pos
  rw [unpermute, ← hlast, backwardRounds, feistelUnround_last, backwardRounds_eq_foldl k (by omega), refUnpermute]

/-! ### Rounds and inverse rounds undo each other (43_feistel.md R104, R106) -/

theorem feistelUnround_feistelRound {c : Config} {lr : Nat × Nat} (h : CanonPair c.p lr) (k i : Nat) :
    feistelUnround c k i (feistelRound c k i lr) = lr := by
  by_cases hi : i + 1 < c.nr
  · simp only [feistelRound, feistelUnround, if_pos hi, subp_addp h.2]
  · simp only [feistelRound, feistelUnround, if_neg hi, subp_addp h.2]

theorem feistelRound_feistelUnround {c : Config} {lr : Nat × Nat} (h : CanonPair c.p lr) (k i : Nat) :
    feistelRound c k i (feistelUnround c k i lr) = lr := by
  by_cases hi : i + 1 < c.nr
  · simp only [feistelRound, feistelUnround, if_pos hi, addp_subp h.1]
  · simp only [feistelRound, feistelUnround, if_neg hi, addp_subp h.2]

theorem backwardRounds_forwardRounds {c : Config} {lr : Nat × Nat} (h : CanonPair c.p lr) (k n : Nat) :
    backwardRounds c k n (forwardRounds c k n lr) = lr := by
  induction n with
  | zero => rfl
  | succ n ih => rw [forwardRounds, backwardRounds, feistelUnround_feistelRound (forwardRounds_canon h n), ih]

theorem forwardRounds_backwardRounds {c : Config} {lr : Nat × Nat} (h : CanonPair c.p lr) (k n : Nat) :
    forwardRounds c k n (backwardRounds c k n lr) = lr := by
  induction n generalizing lr with
  | zero => rfl
  | succ n ih => rw [backwardRounds, forwardRounds, ih (feistelUnround_canon h), feistelRound_feistelUnround h]

theorem unpermute_permute {c : Config} {l r : Nat} (hl : l < c.p) (hr : r < c.p) (k : Nat) :
    unpermute c (permute c l r k).1 (permute c l r k).2 k = (l, r) :=
  backwardRounds_forwardRounds (lr := (l, r)) ⟨hl, hr⟩ k c.nr

theorem permute_unpermute {c : Config} {l r : Nat} (hl : l < c.p) (hr : r < c.p) (k : Nat) :
    permute c (unpermute c l r k).1 (unpermute c l r k).2 k = (l, r) :=
  forwardRounds_backwardRounds (lr := (l, r)) ⟨hl, hr⟩ k c.nr

/-- `permute` and `unpermute` map canonical pairs to canonical pairs and are two-sided inverses there. -/
theorem permute_bijOn (c : Config) (k : Nat) :
    Set.BijOn (fun lr : Nat × Nat => permute c lr.1 lr.2 k) (Set.Iio c.p ×ˢ Set.Iio c.p)
      (Set.Iio c.p ×ˢ Set.Iio c.p) := by
  have hinv : Set.InvOn (fun lr : Nat × Nat => unpermute c lr.1 lr.2 k) (fun lr => permute c lr.1 lr.2 k)
      (Set.Iio c.p ×ˢ Set.Iio c.p) (Set.Iio c.p ×ˢ Set.Iio c.p) :=
    ⟨fun _ h => unpermute_permute h.1 h.2 k, fun _ h => permute_unpermute h.1 h.2 k⟩
  exact hinv.bijOn (fun _ h => permute_canon h.1 h.2) (fun _ h => unpermute_canon h.1 h.2)

/-! ### Commands that write the pair (40_command_execution.md R81 to R83) -/

/-- What a command that succeeds with word `v` and final count `n` leaves when it writes the pair `lr` to XL and XR. -/
def pairWritten (s : State) (v n : Nat) (lr : Nat × Nat) : State := { succeeded s v n with xl := lr.1, xr := lr.2 }

theorem complete_accepted_pair (s : State) (v n : Nat) (lr : Nat × Nat) :
    (s.accepted v (.ok { xl := some lr.1, xr := some lr.2 } n)).complete = pairWritten s v n lr := rfl

/-- Every command on the pair checks XL, XR and KEY first, in this order; the rest of its list decides then. -/
theorem complete_accepted_checked_pair (s : State) (v : Nat) (fs : List FieldReg) (o : CmdOutcome) :
    (s.accepted v (checked s (.xl :: .xr :: .key :: fs) o)).complete =
      if s.cfg.p ≤ s.xl then failedWith s v 1 0x06
      else if s.cfg.p ≤ s.xr then failedWith s v 1 0x07
      else if s.cfg.p ≤ s.key then failedWith s v 1 0x08
      else (s.accepted v (checked s fs o)).complete := by
  rw [complete_accepted_checked_cons, complete_accepted_checked_cons, complete_accepted_checked_cons]
  rfl

theorem commandOutcome_eq_romReader {i : Instr} (hrom : readsRom i = true) (hidx : indexOf i = none) (s : State) :
    commandOutcome i s = romReader s (checked s (checkedRegs i) (successOf s i)) := by
  rw [commandOutcome, romChecked, hrom, indexChecked, hidx]
  rfl

/-- On an idle block a ROM reader without a round index checks CFGERR; its operands decide the rest. -/
theorem completes_of_romReader {i : Instr} {s : State} (hrom : readsRom i = true) (hidx : indexOf i = none)
    (hb : s.busy = false) :
    Completes i (encode i) s
      (if s.cfgerr = true then failedWith s (encode i) 2 0
       else (s.accepted (encode i) (checked s (checkedRegs i) (successOf s i))).complete) := by
  have hcompletes := completes_commandOutcome i hb
  rwa [← State.complete_accepted, commandOutcome_eq_romReader hrom hidx, complete_accepted_romReader] at hcompletes

/-- FSTEP's pair, with the round of the spec's loop written out: the final round keeps XL. -/
theorem pairWritten_feistelRound (s : State) (v n i : Nat) :
    pairWritten s v n (feistelRound s.cfg s.key i (s.xl, s.xr)) =
      if i < s.cfg.nr - 1 then
        { succeeded s v n with xl := (s.xr + refRound s.cfg s.key i s.xl) % s.cfg.p, xr := s.xl }
      else { succeeded s v n with xr := (s.xr + refRound s.cfg s.key i s.xl) % s.cfg.p } := by
  rw [feistelRound_eq_refStep, pairWritten, refStep]
  split <;> rfl

/-! ### Commands on the pair that succeed, one after another -/

/-- With CFGERR 0, an index below NR and canonical operands no check fails (40_command_execution.md R81, R82). -/
theorem commandOutcome_of_checks_pass {i : Instr} {s : State} (hgood : s.cfgerr = false)
    (hidx : ∀ n ∈ indexOf i, n < s.cfg.nr) (hops : ∀ f ∈ checkedRegs i, s.fieldVal f < s.cfg.p) :
    commandOutcome i s = successOf s i := by
  have hindexed : ∀ o, indexChecked i s o = o := fun o => by
    unfold indexChecked
    split
    next imm himm => exact indexed_ok o (hidx imm himm)
    next => rfl
  have hrom : ∀ o, romChecked i s o = o := fun o => by
    unfold romChecked
    split
    · exact romReader_ok o hgood
    · rfl
  obtain ⟨hchecked, -⟩ | ⟨f, hf, hbad, -⟩ := checked_cases s (checkedRegs i) (successOf s i)
  · rw [commandOutcome, hchecked, hindexed, hrom]
  · exact absurd (hops f hf) (Nat.not_lt.mpr hbad)

/-- An idle block with CFGERR 0 whose pair and key are canonical: no check of PERM, ENC, DEC or an FSTEP in range fails. -/
structure PairReady (s : State) : Prop where
  idle : s.busy = false
  good : s.cfgerr = false
  pair : CanonPair s.cfg.p (s.xl, s.xr)
  key : s.key < s.cfg.p

theorem PairReady.after_pairWritten {s : State} (h : PairReady s) (v n : Nat) {lr : Nat × Nat}
    (hlr : CanonPair s.cfg.p lr) : PairReady (pairWritten s v n lr) :=
  ⟨rfl, h.good, hlr, h.key⟩

theorem PairReady.commandOutcome_eq_successOf {s : State} (h : PairReady s) {i : Instr}
    (hregs : checkedRegs i = [.xl, .xr, .key]) (hidx : ∀ n ∈ indexOf i, n < s.cfg.nr) :
    commandOutcome i s = successOf s i := by
  obtain ⟨hxl, hxr⟩ := h.pair
  exact commandOutcome_of_checks_pass h.good hidx (by simp [hregs, State.fieldVal, hxl, hxr, h.key])

/-- On a ready block one more single step applies one more round to the pair. -/
theorem singleSteps_succ {s u : State} {n : Nat} (hsteps : singleSteps n s = some u) (h : PairReady u)
    (hn : n < u.cfg.nr) :
    singleSteps (n + 1) s =
      some (pairWritten u (encode (.fstep n)) 1 (feistelRound u.cfg u.key n (u.xl, u.xr))) := by
  have hexec := exec_idle (.fstep n) h.idle
  rw [h.commandOutcome_eq_successOf rfl (by simpa [indexOf] using hn)] at hexec
  rw [singleSteps, hsteps]
  dsimp only
  rw [hexec]
  rfl

/-- The single steps up to FSTEP `n` leave the pair of rounds 0 to `n`; each overwrites what the one before it wrote. -/
theorem singleSteps_eq_forwardRounds {s : State} (h : PairReady s) {n : Nat} (hn : n < s.cfg.nr) :
    singleSteps (n + 1) s =
      some (pairWritten s (encode (.fstep n)) 1 (forwardRounds s.cfg s.key (n + 1) (s.xl, s.xr))) := by
  induction n with
  | zero => exact singleSteps_succ rfl h hn
  | succ n ih =>
    exact singleSteps_succ (ih (by omega)) (h.after_pairWritten _ _ (forwardRounds_canon h.pair (n + 1))) hn

end Sys2Proof.Machine
end

section
/-! PROOFS. The statements about the Feistel rounds, the permutation and its inverse. -/

namespace Sys2Proof.Proofs

open Sys2Proof Sys2Proof.Machine Sys2Proof.Claims

/-- Settles O52: each inverse round undoes its round, because adding and subtracting a round value modulo `P` cancel. -/
theorem permutationAndInverseUndoEachOther : Obligations.PermutationAndInverseUndoEachOther :=
  fun c _ _ k hl hr _ => ⟨unpermute_permute hl hr k, permute_unpermute hl hr k, permute_bijOn c k⟩

/-- Settles O17: CFGERR, the index, XL, XR and KEY are checked in this order; then one round of the loop is written. -/
theorem fstepAppliesOneFeistelRound : Obligations.FstepAppliesOneFeistelRound := by
  refine fun imm himm => ⟨onlyIndexedWord_of_encode rfl himm rfl, fun s hidle _ => ?_⟩
  have hcompletes := completes_of_indexed (i := .fstep imm) rfl rfl (formatC_of_lt 0x20 himm) hidle
  rwa [successOf, checkedRegs, complete_accepted_checked_pair, checked_nil, complete_accepted_pair,
    pairWritten_feistelRound] at hcompletes

/-- Settles O18: after the checks the pair of all `NR` rounds is written, and the rounds are the loop of R100. -/
theorem permRunsEveryFeistelRound : Obligations.PermRunsEveryFeistelRound := by
  refine ⟨onlyWord_encode (i := .perm) rfl, fun s hidle _ => ?_⟩
  have hcompletes := completes_of_romReader (i := .perm) rfl rfl hidle
  rwa [successOf, checkedRegs, complete_accepted_checked_pair, checked_nil, complete_accepted_pair,
    permute_eq_refPermute] at hcompletes

/-- Settles O20: the checks are PERM's, and the inverse rounds are the loop of R105, the final round undone first. -/
theorem decRunsTheInversePermutation : Obligations.DecRunsTheInversePermutation := by
  refine ⟨onlyWord_encode (i := .dec) rfl, fun s hidle _ => ?_⟩
  have hcompletes := completes_of_romReader (i := .dec) rfl rfl hidle
  rwa [successOf, checkedRegs, complete_accepted_checked_pair, checked_nil, complete_accepted_pair,
    unpermute_eq_refUnpermute] at hcompletes

/-- Settles O55: `NR` is at least 1, so the single steps end in a success, with the pair of all the rounds, as PERM's. -/
theorem singleStepsInOrderEqualPerm : Obligations.SingleStepsInOrderEqualPerm := by
  intro s hidle _ hgood hxl hxr hkey
  have hready : PairReady s := ⟨hidle, hgood, ⟨hxl, hxr⟩, hkey⟩
  have hlast : s.cfg.nr - 1 + 1 = s.cfg.nr := Nat.sub_add_cancel s.cfg.wf.nr_pos
  have hsteps := singleSteps_eq_forwardRounds hready (n := s.cfg.nr - 1) (by omega)
  have hperm := exec_idle .perm hidle
  rw [hready.commandOutcome_eq_successOf rfl (by simp [indexOf])] at hperm
  rw [hlast] at hsteps
  exact ⟨_, _, hsteps, hperm, rfl, rfl, rfl, rfl⟩

end Sys2Proof.Proofs
end

section
/-! SUPPORT. The commands of hash and cipher mode: their shared checks, what their successes write, and a command on a
block that is ready for it. -/

namespace Sys2Proof.Machine

open Sys2Proof.Claims

/-! ### The checks and the writes of hash and cipher mode (44_sponge_cipher.md R108 to R110, R114) -/

/-- CFGERR and then XL, XR and KEY come first for ENC, ABSORB and SQUEEZE; the operands left over decide then. -/
theorem completes_of_pair_checks {i : Instr} {s : State} {fs : List FieldReg} (hrom : readsRom i = true)
    (hidx : indexOf i = none) (hregs : checkedRegs i = .xl :: .xr :: .key :: fs) (hb : s.busy = false) :
    Completes i (encode i) s
      (if s.cfgerr = true then failedWith s (encode i) 2 0
       else if s.cfg.p ≤ s.xl then failedWith s (encode i) 1 0x06
       else if s.cfg.p ≤ s.xr then failedWith s (encode i) 1 0x07
       else if s.cfg.p ≤ s.key then failedWith s (encode i) 1 0x08
       else (s.accepted (encode i) (checked s fs (successOf s i))).complete) := by
  have hcompletes := completes_of_romReader hrom hidx hb
  rwa [hregs, complete_accepted_checked_pair] at hcompletes

/-- SINIT and ABSORB write the pair and the phase. -/
theorem complete_accepted_pair_sqzf (s : State) (v n : Nat) (lr : Nat × Nat) (q : Bool) :
    (s.accepted v (.ok { xl := some lr.1, xr := some lr.2, sqzf := some q } n)).complete =
      { pairWritten s v n lr with sqzf := q } := rfl

/-- SQUEEZE reads the rate lane out, permuted first unless it is the first SQUEEZE of its phase. -/
theorem complete_accepted_squeeze (s : State) (v : Nat) :
    (s.accepted v (successOf s .squeeze)).complete =
      if s.sqzf = true then { succeeded s v 0 with r := s.xl, sqzf := false }
      else { pairWritten s v s.cfg.nr (permute s.cfg s.xl s.xr s.key) with
        r := (permute s.cfg s.xl s.xr s.key).1, sqzf := false } := by
  split
  next hfirst => rw [successOf_squeeze_first hfirst]; rfl
  next hlater => rw [successOf_squeeze_later (Bool.eq_false_iff.mpr hlater)]; rfl

/-! ### Commands that succeed, one after another -/

/-- Only KEY and the pair are checked by ENC, DEC and SQUEEZE, so on a ready block they are accepted with their success. -/
theorem PairReady.exec_eq {s : State} (h : PairReady s) {i : Instr} (hidx : indexOf i = none)
    (hregs : checkedRegs i = [.xl, .xr, .key]) : exec i s = .next (s.accepted (encode i) (successOf s i)) := by
  rw [exec_idle i h.idle, h.commandOutcome_eq_successOf hregs (by simp [hidx])]

/-- ABSORB has one operand more to check, A (44_sponge_cipher.md R109). -/
theorem PairReady.exec_absorb {s : State} (h : PairReady s) (ha : s.a < s.cfg.p) :
    exec .absorb s = .next (s.accepted (encode .absorb) (successOf s .absorb)) := by
  obtain ⟨hxl, hxr⟩ := h.pair
  rw [exec_idle .absorb h.idle, commandOutcome_of_checks_pass h.good (by simp [indexOf])
    (by simp [checkedRegs, State.fieldVal, hxl, hxr, h.key, ha])]

theorem PairReady.with_sqzf {s : State} (h : PairReady s) (q : Bool) : PairReady { s with sqzf := q } :=
  ⟨h.idle, h.good, h.pair, h.key⟩

theorem addp_zero_left {p a : Nat} (ha : a < p) : addp p 0 a = a := by
  rw [addp, Nat.zero_add, Nat.mod_eq_of_lt ha]

end Sys2Proof.Machine
end

section
/-! PROOFS. The statements about hash and cipher mode. -/

namespace Sys2Proof.Proofs

open Sys2Proof Sys2Proof.Machine Sys2Proof.Claims

/-- Settles O19: ENC checks and writes what PERM does, under its own word. -/
theorem encEncryptsAsPerm : Obligations.EncEncryptsAsPerm := by
  refine ⟨onlyWord_encode (i := .enc) rfl, fun s hidle _ => ?_⟩
  have hcompletes := completes_of_pair_checks (i := .enc) rfl rfl rfl hidle
  rwa [checked_nil, successOf, complete_accepted_pair, permute_eq_refPermute] at hcompletes

/-- Settles O22: A is checked after the pair and KEY; the rounds start from the sum; the phase is written, never read. -/
theorem absorbAddsAndPermutes : Obligations.AbsorbAddsAndPermutes := by
  refine ⟨onlyWord_encode (i := .absorb) rfl, fun s hidle _ => ?_⟩
  have hcompletes := completes_of_pair_checks (i := .absorb) rfl rfl rfl hidle
  rwa [complete_accepted_checked_cons, checked_nil, successOf, complete_accepted_pair_sqzf,
    permute_eq_refPermute] at hcompletes

/-- Settles O23: the phase is looked at only when every check has passed. -/
theorem squeezeReadsTheRateLane : Obligations.SqueezeReadsTheRateLane := by
  refine ⟨onlyWord_encode (i := .squeeze) rfl, fun s hidle _ => ?_⟩
  have hcompletes := completes_of_pair_checks (i := .squeeze) rfl rfl rfl hidle
  rwa [checked_nil, complete_accepted_squeeze, permute_eq_refPermute] at hcompletes

/-- Settles O54: ENC leaves a canonical pair and the same KEY, so DEC succeeds, and its inverse rounds undo ENC's. -/
theorem encThenDecRestoresThePair : Obligations.EncThenDecRestoresThePair := by
  intro s hidle hgood hxl hxr hkey
  have hready : PairReady s := ⟨hidle, hgood, ⟨hxl, hxr⟩, hkey⟩
  have hafter := hready.after_pairWritten (encode .enc) s.cfg.nr (permute_canon (k := s.key) hxl hxr)
  have hpair := unpermute_permute hxl hxr s.key
  exact ⟨_, _, hready.exec_eq (i := .enc) rfl rfl, hafter.exec_eq (i := .dec) rfl rfl,
    congrArg Prod.fst hpair, congrArg Prod.snd hpair, rfl⟩

/-- Settles O56: ABSORB permutes the element itself, because XL is 0, and sets SQZF, so SQUEEZE runs no second
permutation. -/
theorem oneAbsorbOneSqueezeIsOnePermutation : Obligations.OneAbsorbOneSqueezeIsOnePermutation := by
  intro s hidle hgood hxl hxr hkey ha
  have hp : 0 < s.cfg.p := Config.p_pos s.cfg
  have hready : PairReady s := ⟨hidle, hgood, ⟨hxl ▸ hp, hxr ▸ hp⟩, hkey⟩
  have habsorb := hready.exec_absorb ha
  rw [successOf, hxl, hxr, addp_zero_left ha] at habsorb
  have hcanon := permute_canon (k := s.key) ha hp
  have hafter := (hready.after_pairWritten (encode .absorb) s.cfg.nr hcanon).with_sqzf true
  have hsqueeze := hafter.exec_eq (i := .squeeze) rfl rfl
  rw [successOf_squeeze_first rfl] at hsqueeze
  exact ⟨_, _, habsorb, hsqueeze, rfl, rfl, rfl, rfl⟩

/-- Settles O21: SINIT reads neither the ROM nor an operand, so no check can fail. -/
theorem sinitClearsTheStatePair : Obligations.SinitClearsTheStatePair := by
  refine ⟨onlyWord_encode (i := .sinit) rfl, fun s hidle => completes_of_checked (i := .sinit) rfl rfl hidle ?_⟩
  exact complete_accepted_pair_sqzf s _ 0 (0, 0) true

end Sys2Proof.Proofs
end

section
/-! SUPPORT. The illegal values of the decoder, the outcome of any CMD value and what it depends on, and the error that an
outcome reports. -/

namespace Sys2Proof.Machine

open Sys2Proof.Claims

/-! ### The illegal values (60_exceptions.md R120) -/

theorem cmdOp_eq (v : Nat) : cmdOp v = v % 256 := by simp [cmdOp, slice]

/-- The opcode map rejects an OP outside the table, or an IMM that is not 0 with an OP that takes none. -/
theorem decodeOp_error {op imm : Nat} {e : Illegal} (h : decodeOp op imm = .error e) :
    op ∉ assignedOps ∨ imm ≠ 0 ∧ op ∉ [0x10, 0x11, 0x20] := by
  have hplain : ∀ {j : Instr}, plainCommand imm j = .error e → imm ≠ 0 := by
    intro j hj himm
    rw [plainCommand, if_pos himm] at hj
    cases hj
  unfold decodeOp at h
  split at h
  case h_7 | h_8 | h_9 => cases h
  case h_16 =>
    left
    simp only [assignedOps, List.mem_cons, List.not_mem_nil]
    tauto
  all_goals exact .inr ⟨hplain h, by decide⟩

/-- Each check that the decoder makes is one of the four conditions. -/
theorem illegalValue_of_decode_error {v : Nat} {e : Illegal} (h : decode v = .error e) : IllegalValue v := by
  unfold decode at h
  split_ifs at h with hupper hrsv
  · exact .inl hupper
  · exact .inr (.inl hrsv)
  · have hop := decodeOp_error h
    rw [cmdOp_eq] at hop
    exact .inr (.inr hop)

theorem decode_error_iff (v : Nat) : (∃ e, decode v = .error e) ↔ IllegalValue v :=
  ⟨fun ⟨_, he⟩ => illegalValue_of_decode_error he, decode_illegal⟩

/-! ### The outcome of a CMD value (40_command_execution.md R80, R81) -/

/-- The outcome of any CMD value: its command's, or ILLEGAL_COMMAND if it decodes to none. -/
def wordOutcome (v : Nat) (s : State) : CmdOutcome :=
  match decode v with
  | .ok i => commandOutcome i s
  | .error _ => illegalOutcome

theorem issueWord_eq_accepted {s : State} (v : Nat) (hb : s.busy = false) :
    issueWord v s = .next (s.accepted v (wordOutcome v s)) := by
  unfold issueWord wordOutcome
  cases hd : decode v with
  | ok i => exact encode_of_decode hd ▸ exec_idle i hb
  | error e => exact issueValue_idle v _ hb

theorem wordOutcome_encode {i : Instr} (hwf : i.wellFormed = true) (s : State) :
    wordOutcome (encode i) s = commandOutcome i s := by
  rw [wordOutcome, Proofs.decodeOfEncodeIsTheCommand i hwf]

theorem complete_accepted_fail (s : State) (v : Nat) (code : ErrCode) (arg : BitVec 5) :
    (s.accepted v (.fail code arg)).complete = failedWith s v (errBits code) arg := rfl

/-! ### What the outcome depends on (60_exceptions.md R121, R124) -/

/-- A failed command leaves every field that a command reads. -/
theorem commandOutcome_failedWith (i : Instr) (s : State) (v : Nat) (code : BitVec 4) (arg : BitVec 5) :
    commandOutcome i (failedWith s v code arg) = commandOutcome i s := by
  cases i <;> rfl

theorem wordOutcome_failedWith (w : Nat) (s : State) (v : Nat) (code : BitVec 4) (arg : BitVec 5) :
    wordOutcome w (failedWith s v code arg) = wordOutcome w s := by
  unfold wordOutcome
  split
  · exact commandOutcome_failedWith _ s v code arg
  · rfl

/-- A command that does not read the ROM does not see CFGERR. -/
theorem commandOutcome_withCfgerr {i : Instr} (hrom : readsRom i = false) (s : State) (b : Bool) :
    commandOutcome i { s with cfgerr := b } = commandOutcome i s := by
  cases i with
  | round | ldc | fstep | perm | enc | dec | absorb | squeeze => cases hrom
  | _ => rfl

theorem exec_withCfgerr {i : Instr} {s : State} (hrom : readsRom i = false) (hb : s.busy = false) (b : Bool) :
    exec i { s with cfgerr := b } =
      .next (State.accepted { s with cfgerr := b } (encode i) (commandOutcome i s)) := by
  rw [exec_idle (s := { s with cfgerr := b }) i hb, commandOutcome_withCfgerr hrom]

/-- While CFGERR = 1 no other check of a command that reads the ROM is reached. -/
theorem commandOutcome_of_cfgerr {i : Instr} {s : State} (hrom : readsRom i = true) (hbad : s.cfgerr = true) :
    commandOutcome i s = .fail .configMismatch 0 := by
  rw [commandOutcome, romChecked, if_pos hrom]
  exact romReader_fail _ hbad

/-! ### The error an outcome reports (60_exceptions.md R125) -/

/-- The code and the argument that STATUS shows for a failure. -/
def reportedError : CmdOutcome → Option (BitVec 4 × BitVec 5)
  | .fail code arg => some (errBits code, arg)
  | .ok _ _ => none

theorem reportedError_eq_some {o : CmdOutcome} {code : BitVec 4} {arg : BitVec 5}
    (h : reportedError o = some (code, arg)) : ∃ c, errBits c = code ∧ o = .fail c arg := by
  cases o with
  | fail c a => cases h; exact ⟨c, rfl, rfl⟩
  | ok w n => cases h

theorem reportedError_eq_none {o : CmdOutcome} (h : reportedError o = none) : ∃ w n, o = .ok w n := by
  cases o with
  | fail c a => cases h
  | ok w n => exact ⟨w, n, rfl⟩

theorem reportedError_of_outcomeErr_eq_zero {o : CmdOutcome} (h : outcomeErr o = 0) : reportedError o = none := by
  cases o with
  | fail code arg => exact absurd h (outcomeErr_fail_ne_zero code arg)
  | ok w n => rfl

theorem reportedError_successOf (i : Instr) (s : State) : reportedError (successOf s i) = none :=
  reportedError_of_outcomeErr_eq_zero (outcomeErr_successOf i s)

theorem reportedError_romChecked (i : Instr) (s : State) (o : CmdOutcome) :
    reportedError (romChecked i s o) =
      if readsRom i = true ∧ s.cfgerr = true then some (2, 0) else reportedError o := by
  unfold romChecked
  cases readsRom i with
  | false => simp
  | true => cases hbad : s.cfgerr <;> simp [romReader, hbad, reportedError, errBits]

theorem reportedError_indexChecked (i : Instr) (s : State) (o : CmdOutcome) :
    reportedError (indexChecked i s o) =
      if ∃ n ∈ indexOf i, s.cfg.nr ≤ n then some (4, 0) else reportedError o := by
  unfold indexChecked
  cases indexOf i with
  | none => simp
  | some imm =>
    by_cases hrange : imm < s.cfg.nr
    · simp [indexed_ok o hrange, hrange]
    · simp [indexed_fail o (Nat.not_lt.mp hrange), hrange, reportedError, errBits]

/-- The operand check reports the first register of its list that is not canonical (30_encoding.md R74). -/
theorem reportedError_checked (s : State) (fs : List FieldReg) {o : CmdOutcome} (ho : reportedError o = none) :
    reportedError (checked s fs o) =
      ((fs.map fun f => (s.fieldVal f, fieldAddr f)).find? fun x => decide (s.cfg.p ≤ x.1)).map fun x => (1, x.2) := by
  induction fs with
  | nil => exact ho
  | cons f fs ih =>
    by_cases hbad : s.cfg.p ≤ s.fieldVal f
    · simp [checked_cons_fail hbad, hbad, reportedError, errBits]
    · simp [checked_cons_ok (Nat.not_le.mp hbad), hbad, ih]

/-- The registers of the check list with their addresses are the operands of R74. -/
theorem operandsOf_eq_map (s : State) (i : Instr) :
    operandsOf s i = (checkedRegs i).map fun f => (s.fieldVal f, fieldAddr f) := by
  cases i <;> rfl

/-- The nesting of the checks is the priority order. -/
theorem reportedError_commandOutcome (i : Instr) (s : State) : reportedError (commandOutcome i s) = firstError s i := by
  rw [commandOutcome, reportedError_romChecked, reportedError_indexChecked,
    reportedError_checked s _ (reportedError_successOf i s), ← operandsOf_eq_map, firstError]

end Sys2Proof.Machine
end

section
/-! PROOFS. The statements about errors, and that no lawful state stops. -/

namespace Sys2Proof.Proofs

open Sys2Proof Sys2Proof.Machine Sys2Proof.Claims

/-- Settles O4: the decoder's checks are the four conditions, and acceptance stores the word in CMD, which completion
keeps. -/
theorem illegalCommandsFailAndStayReadable : Obligations.IllegalCommandsFailAndStayReadable :=
  ⟨decode_error_iff, fun s v hidle hillegal =>
    ⟨_, issueWord_illegal hidle hillegal, ⟨illegalOutcome, rfl⟩, complete_accepted_illegal s v, rfl, rfl⟩⟩

/-- Settles O24: the error a command's outcome reports is the first of the order, and without one the outcome is `Ok`. -/
theorem errorsAreReportedInPriorityOrder : Obligations.ErrorsAreReportedInPriorityOrder := by
  refine ⟨fun s v hidle hillegal => ⟨_, issueWord_illegal hidle hillegal, complete_accepted_illegal s v⟩,
    fun i s hwf hidle => ?_⟩
  have hissue := issueWord_eq_accepted (encode i) hidle
  rw [wordOutcome_encode hwf] at hissue
  refine ⟨_, hissue, ⟨_, rfl⟩, fun code arg herr => ?_, fun hnone => ?_⟩
  · obtain ⟨c, rfl, hfail⟩ := reportedError_eq_some ((reportedError_commandOutcome i s).trans herr)
    rw [hfail, complete_accepted_fail]
  · obtain ⟨w, n, hok⟩ := reportedError_eq_none ((reportedError_commandOutcome i s).trans hnone)
    rw [hok]
    exact ⟨rfl, rfl, w, n, rfl⟩

/-- Settles O25: the outcome is a function of fields that a failed command leaves. -/
theorem failedCommandsArePrecise : Obligations.FailedCommandsArePrecise := by
  refine fun v s hidle => ⟨_, issueWord_eq_accepted v hidle, fun code arg hpending => ?_⟩
  have hfail : wordOutcome v s = .fail code arg := Option.some.inj hpending
  rw [hfail, complete_accepted_fail]
  refine ⟨rfl, _, issueWord_eq_accepted v rfl, ?_⟩
  rw [State.accepted_pending, wordOutcome_failedWith, hfail]

/-- Settles O26: only a ROM reader has the CFGERR check, and it is the first of its checks. -/
theorem configMismatchStopsOnlyRomReaders : Obligations.ConfigMismatchStopsOnlyRomReaders := by
  refine ⟨fun c => ⟨mismatch_iff c, fun hbad => if_pos hbad⟩, fun i s hidle => ⟨fun hrom hbad => ?_, fun hrom => ?_⟩⟩
  · have hcompletes := completes_commandOutcome i hidle
    rwa [commandOutcome_of_cfgerr hrom hbad] at hcompletes
  · exact ⟨_, _, exec_withCfgerr hrom hidle true, exec_withCfgerr hrom hidle false, rfl⟩

/-- Settles O50: every turn leads on (`step_cons_answers`); with none left the pending command completes, or the host
moves with a transaction the port carries. -/
theorem noStepFromALawfulStateStops : Obligations.NoStepFromALawfulStateStops := by
  intro s hinv
  cases hturns : s.turns with
  | nil =>
    rw [step_nil hturns, defaultMove]
    split
    · exact ⟨_, rfl⟩
    · exact hostMove_answers hinv.host
  | cons turn ts =>
    obtain ⟨t, hstep, -⟩ := step_cons_answers hinv hturns
    exact ⟨t, hstep⟩

end Sys2Proof.Proofs
end
